-- ==== Sys2Proof/Word.lean ====
section
/-! DEFINITION. The word type of the block and the WideInt integer laws of 00_scope.md R11 and R20. -/

namespace Sys2Proof

/-- A 128-bit word: every operand and every result (00_scope.md R2, R8, R10). -/
abbrev Word := BitVec 128

/-- A 257-bit request word `RW = {op, a, b}` (30_encoding.md R81). -/
abbrev RequestWord := BitVec 257

/-- `lzc_128(v) = 127 − msb(v)`, and `lzc_128(0) = 128` (00_scope.md R11). -/
def lzc128 (v : Word) : Nat :=
  if v.toNat = 0 then 128 else 127 - Nat.log2 v.toNat

/-- Exact addition of 128-bit words: the carry out and the sum (00_scope.md R20). -/
def addCarry (x y : Word) : Bool × Word :=
  (decide (2 ^ 128 ≤ x.toNat + y.toNat), x + y)

/-- Exact subtraction of 128-bit words: the borrow and the difference (00_scope.md R20). -/
def subBorrow (x y : Word) : Bool × Word :=
  (decide (x.toNat < y.toNat), x - y)

end Sys2Proof
end

