-- ==== Sys2Proof/Config.lean ====
section
/-! DEFINITION. What an instance fixes and the spec leaves open (00_scope.md R8), and the free values (93_implementation_defined.md U1 to U6). Nothing here has a value Lean can see. -/

namespace Sys2Proof

/-- The free choice behind `LATENCY`. No body: nothing can be proved of its value (log 2). -/
opaque Config.latencyDraw : Nat

/-- `LATENCY`, written `L`: an integer `L ≥ 1`, fixed for an instance (00_scope.md R8, U1). -/
def Config.latency : Nat := Config.latencyDraw + 1

/-- The free choice behind `QNAN_T`. No body (log 3). -/
opaque Config.qnanDraw : Nat

/-- `QNAN_T`, the trailing significand of the quiet NaN: an integer with
`1 ≤ QNAN_T ≤ 2^112 − 1`, fixed for an instance (00_scope.md R8, 30_encoding.md R90, U2).
Every value of that range is the image of some free choice. -/
def Config.qnanT : Nat := Config.qnanDraw % (2 ^ 112 - 1) + 1

/-- The free draws for a `stage[k].result` the spec calls "any u128 value (a draw)"
(10_state.md R38, R39, R43; U3, U4, U5). Applied to the counter `State.draws` (log 4). -/
opaque Config.draw : Nat → Word

/-- The free `stage[k].valid` before the first reset edge (10_state.md R44, U6; log 6). -/
opaque Config.powerOnValid : Nat → Bool

/-- The free `stage[k].result` before the first reset edge (10_state.md R44, U6; log 6). -/
opaque Config.powerOnResult : Nat → Word

/-- The free input pins `{in_op, in_a, in_b}` at an edge where a script line leaves them unsaid:
"other inputs any value" (30_encoding.md R96; log 11). Applied to the edge number. -/
opaque Config.pinDraw : Nat → RequestWord

/-- The free `in_valid` at an edge of a RESET line (30_encoding.md R96; log 11). Applied to the edge
number. -/
opaque Config.inValidDraw : Nat → Bool

end Sys2Proof
end

