-- ==== Sys2Proof/Machine/Operands.lean ====
section
/-! DEFINITION. The binary128 word: fields, exponent, significand, classes, named words and the operand forms of the block (30_encoding.md R84 to R92, 20_memory.md R62, R63). -/

namespace Sys2Proof.Machine

/-- `s(x) = x[127]` (R84). -/
def signBit (x : Word) : Bool := x.getLsbD 127

/-- `E(x) = x[126:112]`, read as an unsigned integer (R84, 00_scope.md R9). -/
def expField (x : Word) : Nat := (x.extractLsb' 112 15).toNat

/-- `T(x) = x[111:0]`, read as an unsigned integer (R84). -/
def trailing (x : Word) : Nat := (x.extractLsb' 0 112).toNat

/-- `{s, E, T}` (R84). -/
def pack (s : Bool) (E T : Nat) : Word :=
  BitVec.ofBool s ++ BitVec.ofNat 15 E ++ BitVec.ofNat 112 T

/-- `e(x)`, the unbiased exponent of a finite word (R85). At `E = 32767` the value is never used:
a special case takes every such word (log 16). -/
def unbiasedExp (x : Word) : Int :=
  if expField x = 0 then -16382 else (expField x : Int) - 16383

/-- `m(x)`, the significand with implicit bit (R86). -/
def significand (x : Word) : Nat :=
  if expField x = 0 then trailing x else trailing x ||| 2 ^ 112

/-- NaN: `E = 32767` and `T ≠ 0` (R88). -/
def isNaN (x : Word) : Bool := decide (expField x = 32767 ∧ trailing x ≠ 0)

/-- Infinity: `E = 32767` and `T = 0` (R88). -/
def isInf (x : Word) : Bool := decide (expField x = 32767 ∧ trailing x = 0)

/-- Finite: `E ≠ 32767` (R88). -/
def isFinite (x : Word) : Bool := decide (expField x ≠ 32767)

/-- Normal: `1 ≤ E ≤ 32766` (R88; 90_conflicts.md C7). -/
def isNormal (x : Word) : Bool := decide (1 ≤ expField x ∧ expField x ≤ 32766)

/-- An E0 word, a zero or a subnormal: `E = 0` (R88). -/
def isE0 (x : Word) : Bool := decide (expField x = 0)

/-- Zero: `E = 0` and `T = 0` (R88). -/
def isZero (x : Word) : Bool := decide (expField x = 0 ∧ trailing x = 0)

/-- Subnormal proper: `E = 0` and `T ≠ 0` (R88). -/
def isSubnormal (x : Word) : Bool := decide (expField x = 0 ∧ trailing x ≠ 0)

/-- The four classes of which exactly one holds for every word (R88). -/
inductive OperandClass where
  | nan
  | infinity
  | normal
  | e0
deriving DecidableEq, Repr

/-- The class of a word, decided from its fields alone (R88, R92). -/
def classOf (x : Word) : OperandClass :=
  if expField x = 32767 then
    if trailing x = 0 then .infinity else .nan
  else if expField x = 0 then .e0
  else .normal

/-- `flip_sign(x) = x ^ 2^127` (40_fp_add.md R150). -/
def flipSign (x : Word) : Word := x ^^^ BitVec.ofNat 128 (2 ^ 127)

/-- `+0` (R89). -/
def posZero : Word := 0x0000_0000_0000_0000_0000_0000_0000_0000#128
/-- `−0` (R89). -/
def negZero : Word := 0x8000_0000_0000_0000_0000_0000_0000_0000#128
/-- `+INF` (R89). -/
def posInf : Word := 0x7FFF_0000_0000_0000_0000_0000_0000_0000#128
/-- `−INF` (R89). -/
def negInf : Word := 0xFFFF_0000_0000_0000_0000_0000_0000_0000#128
/-- `EPS`, the smallest subnormal (R89). -/
def eps : Word := 0x0000_0000_0000_0000_0000_0000_0000_0001#128
/-- `MAX_SUB`, the largest subnormal (R89). -/
def maxSub : Word := 0x0000_FFFF_FFFF_FFFF_FFFF_FFFF_FFFF_FFFF#128
/-- `MIN_NORMAL`, the smallest normal (R89). -/
def minNormal : Word := 0x0001_0000_0000_0000_0000_0000_0000_0000#128
/-- `ONE` (R89). -/
def one : Word := 0x3FFF_0000_0000_0000_0000_0000_0000_0000#128
/-- `TWO` (R89). -/
def two : Word := 0x4000_0000_0000_0000_0000_0000_0000_0000#128
/-- `MAX_FINITE`, the largest finite word (R89). -/
def maxFinite : Word := 0x7FFE_FFFF_FFFF_FFFF_FFFF_FFFF_FFFF_FFFF#128

/-- The infinity of sign `s` (40_fp_add.md R130). -/
def infOf (s : Bool) : Word := pack s 32767 0

/-- The zero of sign `s` (40_fp_add.md R143). -/
def zeroOf (s : Bool) : Word := pack s 0 0

/-- `QNAN`: `s = 0`, `E = 32767`, `T = QNAN_T`, for the parameter value `t` (R90). -/
def qnan (t : Nat) : Word := pack false 32767 t

/-- The parameter values the spec admits: `1 ≤ QNAN_T ≤ 2^112 − 1` (00_scope.md R8). -/
def qnanTOk (t : Nat) : Bool := decide (1 ≤ t ∧ t ≤ 2 ^ 112 - 1)

/-- `SNAN`, the sentinel NaN: `s = 1`, `E = 32767`, `T = 1` (R91). -/
def snan : Word := 0xFFFF_0000_0000_0000_0000_0000_0000_0001#128

/-- Limb 0 of a word the host keeps as 64-bit limbs: bits 63..0 (20_memory.md R63). -/
def limb0 (x : Word) : BitVec 64 := x.extractLsb' 0 64

/-- Limb 1: bits 127..64 (20_memory.md R63). -/
def limb1 (x : Word) : BitVec 64 := x.extractLsb' 64 64

/-- The word of two limbs, index 0 least significant (20_memory.md R63). -/
def ofLimbs (l0 l1 : BitVec 64) : Word := l1 ++ l0

end Sys2Proof.Machine
end

