-- ==== Sys2Proof/Machine/Flags.lean ====
section
/-! DEFINITION. The guard, round and sticky bits of a widened significand (00_scope.md glossary, 40_fp_add.md R128), and the conditions a result word reports. The block has no status flag, condition code or sticky exception bit (10_state.md R33): every exceptional condition is read off the result (60_exceptions.md R171). -/

namespace Sys2Proof.Machine

/-- `Lk = M[3]`, the least significant kept bit (40_fp_add.md R128). -/
def keptLsb (M : Nat) : Bool := M.testBit 3

/-- `G = M[2]`, the guard bit (40_fp_add.md R128). -/
def guardBit (M : Nat) : Bool := M.testBit 2

/-- `R = M[1]`, the round bit (40_fp_add.md R128). -/
def roundBit (M : Nat) : Bool := M.testBit 1

/-- `S = M[0]`, the sticky bit (40_fp_add.md R128). -/
def lowBit (M : Nat) : Bool := M.testBit 0

/-- The rounding condition `G = 1 and (Lk = 1 or R = 1 or S = 1)` (40_fp_add.md R128;
90_conflicts.md C3). -/
def roundsUp (M : Nat) : Bool :=
  guardBit M && (keptLsb M || roundBit M || lowBit M)

/-- Invalid operation: infinities of opposite signs, for the operands as FPADD gets them
(60_exceptions.md R171). -/
def invalidOperation (a b : Word) : Bool :=
  isInf a && isInf b && (signBit a != signBit b)

/-- NaN propagation: any NaN operand (60_exceptions.md R171). -/
def nanPropagation (a b : Word) : Bool := isNaN a || isNaN b

/-- What a host reads off a result word alone (60_exceptions.md R171). -/
inductive Reading where
  /-- `SNAN`: an invalid operation. -/
  | invalid
  /-- Another NaN word: on an instance, `QNAN`, so a NaN operand. -/
  | nan
  /-- `±INF`: an infinite operand or an overflow. -/
  | infinite (sign : Bool)
  /-- Below `MIN_NORMAL` in magnitude: a subnormal or a zero. -/
  | tiny
  /-- A normal result. -/
  | normal
deriving DecidableEq, Repr

/-- The reading of a result word (60_exceptions.md R171). -/
def readResult (r : Word) : Reading :=
  if r = snan then .invalid
  else match classOf r with
    | .nan => .nan
    | .infinity => .infinite (signBit r)
    | .e0 => .tiny
    | .normal => .normal

end Sys2Proof.Machine
end

