-- ==== Sys2Proof/Syntax.lean ====
section
/-! DEFINITION. The instructions: one constructor per row of spec/opcode_table.json. -/

namespace Sys2Proof

/-- A request as the datapath sees it: the operation and its two operand words, which reach the
datapath as the exact bits on `in_a` and `in_b` (30_encoding.md R80, R83, R94). -/
inductive Instr where
  /-- ADD: `a + b` (40_fp_add.md R151). -/
  | add (a b : Word)
  /-- SUB: `a − b` (40_fp_add.md R152). -/
  | sub (a b : Word)
deriving DecidableEq, Repr

end Sys2Proof
end

