-- ==== Sys2Proof/WellFormed.lean ====
section
/-! DEFINITION. Well-formedness of requests (30_encoding.md R81, R92, R93). The checks of the host's request scripts stand in Machine/Script.lean. -/

namespace Sys2Proof

/-- Every request is defined: both values of `op` name an operation and every 128-bit pattern is a
valid operand (30_encoding.md R92, R93), so no term of `Instr` is ill-formed. -/
def Instr.wellFormed : Instr → Bool
  | .add _ _ => true
  | .sub _ _ => true

/-- A number is a request word when it fits the 257 bits of `{op, a, b}`: no bit above bit 256
(30_encoding.md R81). -/
def requestWordFits (w : Nat) : Bool := decide (w >>> 257 = 0)

end Sys2Proof
end

