-- ==== Sys2Proof/Decode.lean ====
section
/-! DEFINITION. From request words to instructions and back (30_encoding.md R80 to R83, spec/opcode_table.json). The block has no bytes and no byte order (20_memory.md R62): the decoder reads the 257 port bits as one word (log 10). -/

namespace Sys2Proof

/-- Why a number is no request. -/
inductive DecodeError where
  /-- The number has a bit above bit 256, so it is no 257-bit request word (R81; log 10).
  Safe: no request of the block is rejected. -/
  | notARequestWord
deriving DecidableEq, Repr

/-- `RW[256] = op`: the operation select (R81). -/
def RequestWord.op (w : RequestWord) : BitVec 1 := w.extractLsb' 256 1

/-- `RW[255:128] = a`: the first operand (R81). -/
def RequestWord.a (w : RequestWord) : Word := w.extractLsb' 128 128

/-- `RW[127:0] = b`: the second operand (R81). -/
def RequestWord.b (w : RequestWord) : Word := w.extractLsb' 0 128

/-- The request word of three ports: `RW = {op, a, b}` (R81). -/
def packRequest (op : BitVec 1) (a b : Word) : RequestWord :=
  op ++ a ++ b

/-- The request word with the bits of a number: `RW[256]`, `RW[255:128]` and `RW[127:0]` (R81). -/
def requestOfNat (w : Nat) : RequestWord :=
  packRequest (BitVec.ofNat 1 (w >>> 256)) (BitVec.ofNat 128 (w >>> 128)) (BitVec.ofNat 128 w)

/-- The request of a request word: `op = 0` is ADD, `op = 1` is SUB (R83). -/
def decodeRequest (w : RequestWord) : Instr :=
  if RequestWord.op w = 0#1 then
    .add (RequestWord.a w) (RequestWord.b w)
  else
    .sub (RequestWord.a w) (RequestWord.b w)

/-- The decoder, total on every number, rejecting by name what is no request word. -/
def decode (w : Nat) : Except DecodeError Instr :=
  if requestWordFits w then .ok (decodeRequest (requestOfNat w))
  else .error .notARequestWord

/-- The operation select of an instruction (R83). -/
def Instr.op : Instr → BitVec 1
  | .add _ _ => 0#1
  | .sub _ _ => 1#1

/-- The first operand of an instruction (R80). -/
def Instr.a : Instr → Word
  | .add a _ => a
  | .sub a _ => a

/-- The second operand of an instruction (R80). -/
def Instr.b : Instr → Word
  | .add _ b => b
  | .sub _ b => b

/-- The encoder: the request word of an instruction (R81, R83). -/
def encode (i : Instr) : RequestWord := packRequest i.op i.a i.b

/-- The bits of `w` that a row of `nbits` bits gives; every bit above them is 0. -/
def tableBits (nbits w : Nat) : Nat := if w >>> nbits = 0 then w else w % 2 ^ nbits

/-- What the decoder reads from a row of spec/opcode_table.json, bit 0 the least significant bit of
the request word. -/
def decodeTableWord (nbits w : Nat) : Option Instr :=
  match decode (tableBits nbits w) with
  | .ok i => some i
  | .error _ => none

end Sys2Proof
end

