-- ==== Sys2Proof/Machine/State.lean ====
section
/-! DEFINITION. The state of the block and of the host's side of its ports, as plain data (10_state.md R35 to R44). -/

namespace Sys2Proof.Machine

/-- One pipeline stage: `stage[k].valid` and `stage[k].result : u128` (10_state.md R36). -/
structure Stage where
  valid : Bool
  result : Word
deriving DecidableEq, Repr

/-- What the host puts on an operand port. -/
inductive Source where
  /-- The exact bits (30_encoding.md R94). -/
  | bits (w : Word)
  /-- `out_result` wired to the port: whatever word stands there in the interval before the edge,
  valid or not (70_reset_and_hazards.md R197, R198). -/
  | outResult
  /-- `R<n>`: the n-th response, counted from 1, fed back by the host (30_encoding.md R96; log 8). -/
  | response (n : Nat)
deriving DecidableEq, Repr

/-- What the host drives at one clock edge on the input ports `rst`, `in_valid`, `in_op`, `in_a`,
`in_b`. All signals are two-valued (10_state.md R35; log 1, 13). -/
structure Drive where
  rst : Bool
  inValid : Bool
  inOp : BitVec 1
  inA : Source
  inB : Source
deriving DecidableEq, Repr

/-- The whole machine: the block's pipeline `stage[1] .. stage[L]` (10_state.md R36) and the host's
side of the ports. The shape gives `L ≥ 1` (00_scope.md R8; log 2). -/
structure State where
  /-- `stage[1]`. -/
  stage1 : Stage
  /-- `stage[2]` to `stage[L]`, in that order. -/
  later : List Stage
  /-- What the host drives at the coming edges, in edge order; after the last one the host idles
  (log 1). -/
  pending : List Drive
  /-- The responses presented in past intervals, in order, as the host sampled them
  (70_reset_and_hazards.md R199, R200; log 7). -/
  responses : List Word
  /-- A reset edge has occurred since power-on. Only then does the host give a meaning to
  `out_valid` (70_reset_and_hazards.md R195; log 20). -/
  resetSeen : Bool
  /-- A request was accepted before the first reset edge, against R195 (log 20). -/
  earlyRequest : Bool
  /-- The model's own: how many free draws have been taken (log 4). -/
  draws : Nat
deriving DecidableEq, Repr

/-- Why the block stops with a fault: never. The block raises no exception, has no trap, and no
request fails to produce its response (60_exceptions.md R170, R174), so the type is empty. -/
inductive Fault : Type
deriving DecidableEq, Repr

/-- Why the model refuses a step. -/
inductive Refusal where
  /-- An instruction with no meaning in this model; raised by no arm. Safe. -/
  | notModelled (mnemonic : String)
  /-- The host is told to present `R<n>` at an edge where the n-th response does not exist yet:
  "the host has no such value to send" (93_implementation_defined.md U9, 70_reset_and_hazards.md
  R198; log 8). Raised by the step when it resolves the operands of a request. Safe. -/
  | responseNotAvailable (n : Nat)
deriving DecidableEq, Repr

/-- `n` stages with `valid = 0` and free results, the draws from index `i` on
(10_state.md R43, 70_reset_and_hazards.md R190). -/
def drawnStages : Nat → Nat → List Stage
  | 0, _ => []
  | n + 1, i => ⟨false, Config.draw i⟩ :: drawnStages n (i + 1)

/-- The state after reset (10_state.md R43): every `stage[k].valid` is 0, every `stage[k].result` is
a draw; nothing is pending and no response has been presented (log 5). A reset edge has occurred and
no request was accepted before it (70_reset_and_hazards.md R195). -/
def State.reset : State where
  stage1 := ⟨false, Config.draw 0⟩
  later := drawnStages Config.latencyDraw 1
  pending := []
  responses := []
  resetSeen := true
  earlyRequest := false
  draws := Config.latency

/-- `n` stages before the first reset edge, from stage index `k` on: valid bits and results are free
(10_state.md R44). -/
def powerOnStages : Nat → Nat → List Stage
  | 0, _ => []
  | n + 1, k => ⟨Config.powerOnValid k, Config.powerOnResult k⟩ :: powerOnStages n (k + 1)

/-- The power-on state, before the first reset edge: every `stage[k].valid` and every
`stage[k].result` is unspecified (10_state.md R44, U6; log 6). No reset edge has occurred, so the
host gives `out_valid` no meaning yet (70_reset_and_hazards.md R195). -/
def State.powerOn : State where
  stage1 := ⟨Config.powerOnValid 1, Config.powerOnResult 1⟩
  later := powerOnStages Config.latencyDraw 2
  pending := []
  responses := []
  resetSeen := false
  earlyRequest := false
  draws := 0

end Sys2Proof.Machine
end

