-- ==== Sys2Proof/Machine/Ops.lean ====
section
/-! DEFINITION. The shared operations over the pipeline and the ports: what one clock edge does (10_state.md R37 to R41, 70_reset_and_hazards.md R190), what the outputs show, and what the host samples and drives. The block has no exception to take and none to return from (60_exceptions.md R170, R174, R175), so no operation here enters a handler. -/

namespace Sys2Proof.Machine

/-- `stage[1]` to `stage[L]` (10_state.md R36). -/
def State.stages (s : State) : List Stage := s.stage1 :: s.later

/-- `L`, the number of stages (10_state.md R36). -/
def State.latency (s : State) : Nat := s.later.length + 1

/-- `stage[k]`, for `k` in `1 .. L` (10_state.md R36). -/
def State.stage? (s : State) (k : Nat) : Option Stage :=
  match k with
  | 0 => none
  | k + 1 => s.stages[k]?

/-- `stage[L]`. -/
def State.lastStage (s : State) : Stage := s.later.getLastD s.stage1

/-- `out_valid = stage[L].valid` (10_state.md R39). -/
def State.outValid (s : State) : Bool := s.lastStage.valid

/-- `out_result = stage[L].result` (10_state.md R39). It has a meaning only when `out_valid = 1`. -/
def State.outResult (s : State) : Word := s.lastStage.result

/-- The response a stage holds: its result when it is valid, nothing otherwise. A result with
`valid = 0` has no meaning (10_state.md R39). -/
def Stage.response (st : Stage) : Option Word :=
  if st.valid then some st.result else none

/-- One shift of the pipeline: `new` enters `stage[1]`, and `stage[k] <- stage[k-1]` for `k = 2 .. L`,
the values held before this edge (10_state.md R38). -/
def State.shift (s : State) (new : Stage) : State :=
  { s with stage1 := new, later := (s.stage1 :: s.later).dropLast }

/-- An edge that accepts a request whose value is `r` (10_state.md R38 with `in_valid = 1`). The
whole value enters `stage[1]` and is only delayed from there (10_state.md R36; log 9). -/
def State.accept (s : State) (r : Word) : State := s.shift ⟨true, r⟩

/-- An edge with `rst = 0` and `in_valid = 0`: `stage[1].valid <- 0`, `stage[1].result` is a fresh
draw (10_state.md R38; log 4). -/
def State.idleEdge (s : State) : State :=
  { s.shift ⟨false, Config.draw s.draws⟩ with draws := s.draws + 1 }

/-- An edge with `rst = 1`: every `valid <- 0`, every `result` a fresh draw
(70_reset_and_hazards.md R190). -/
def State.resetEdge (s : State) : State :=
  { s with
    stage1 := ⟨false, Config.draw s.draws⟩
    later := drawnStages s.later.length (s.draws + 1)
    draws := s.draws + s.latency }

/-- The response the host takes from the outputs in the interval that ends at the next edge. Before
the first reset edge it gives `out_valid` no meaning and takes none (70_reset_and_hazards.md R195,
10_state.md R39, R44). -/
def State.presented (s : State) : Option Word :=
  if s.resetSeen && s.outValid then some s.outResult else none

/-- The host samples the response presented in the interval that ends at this edge, and keeps it
(70_reset_and_hazards.md R199; log 7). -/
def State.sample (s : State) : State :=
  { s with responses := s.responses ++ s.presented.toList }

/-- The host drives nothing: `rst = 0`, `in_valid = 0`. The other pins have no effect (R37). -/
def Drive.quiet : Drive where
  rst := false
  inValid := false
  inOp := 0#1
  inA := .bits 0#128
  inB := .bits 0#128

/-- What the host drives at the next edge; with nothing left to drive, an idle edge (log 1). -/
def State.nextDrive (s : State) : Drive := s.pending.headD Drive.quiet

/-- The host's side of one edge: it samples the response that is presented, the edge's drive is used
up, and the record of the launch is kept: whether a reset edge has occurred, and whether a request
was accepted before the first one (70_reset_and_hazards.md R195; log 1, 7, 20). -/
def State.atEdge (s : State) : State :=
  { s.sample with
    pending := s.pending.tail
    resetSeen := s.resetSeen || s.nextDrive.rst
    earlyRequest := s.earlyRequest ||
      (!s.resetSeen && !s.nextDrive.rst && s.nextDrive.inValid) }

/-- The word an operand port carries, or the number of a response that does not exist yet.
`s` is the state at the edge, with every response presented before it sampled
(30_encoding.md R96, 70_reset_and_hazards.md R198; log 8). -/
def Source.resolve (src : Source) (s : State) : Except Nat Word :=
  match src with
  | .bits w => .ok w
  | .outResult => .ok s.outResult
  | .response 0 => .error 0
  | .response (k + 1) =>
    match s.responses[k]? with
    | some w => .ok w
    | none => .error (k + 1)

/-- What the block sees at one edge. -/
inductive EdgeInput where
  /-- `rst = 1`, whatever the other pins hold (70_reset_and_hazards.md R190). -/
  | reset
  /-- `rst = 0` and `in_valid = 0` (10_state.md R37). -/
  | idle
  /-- `rst = 0` and `in_valid = 1`: the request `{in_op, in_a, in_b}`, sampled whole
  (10_state.md R37, 20_memory.md R65). -/
  | request (rw : RequestWord)
  /-- A request whose operand `R<n>` the host does not have (U9). -/
  | unavailable (n : Nat)
deriving DecidableEq, Repr

/-- The pins of a drive at an edge, the host's words resolved in `s` (10_state.md R37). -/
def Drive.seen (d : Drive) (s : State) : EdgeInput :=
  if d.rst then .reset
  else if d.inValid then
    match d.inA.resolve s, d.inB.resolve s with
    | .ok a, .ok b => .request (packRequest d.inOp a b)
    | .error n, _ => .unavailable n
    | .ok _, .error n => .unavailable n
  else .idle

/-- What the block sees at the next edge of `s`. -/
def State.edgeInput (s : State) : EdgeInput := s.nextDrive.seen s.atEdge

/-- The drive that presents a request word (10_state.md R37). -/
def Drive.ofRequest (rw : RequestWord) : Drive where
  rst := false
  inValid := true
  inOp := RequestWord.op rw
  inA := .bits (RequestWord.a rw)
  inB := .bits (RequestWord.b rw)

/-- Present a request word at the next edge, in place of what the host would drive there. -/
def State.present (s : State) (rw : RequestWord) : State :=
  { s with pending := Drive.ofRequest rw :: s.pending.tail }

end Sys2Proof.Machine
end

