-- ==== Sys2Proof/Machine/FpAdd.lean ====
section
/-! DEFINITION. The one instruction family: ADD and SUB, built from the steps of 40_fp_add.md one rule at a time. Intermediate values are mathematical integers (00_scope.md R10; 40_fp_add.md R125 allows it; log 15). -/

namespace Sys2Proof.Machine

/-- Operand order: swap when `E(b) > E(a)`, not on a tie (R111). -/
def orderOperands (a b : Word) : Word × Word :=
  if expField a < expField b then (b, a) else (a, b)

/-- The special cases on ordered operands, first match wins (R112 to R116). `t` is `QNAN_T`. -/
def specialCase (t : Nat) (a b : Word) : Option Word :=
  if isInf a && isInf b then
    some (if signBit a = signBit b then a else snan)
  else if isInf a && isFinite b then some a
  else if isInf b && isFinite a then some b
  else if isNaN a || isNaN b then some (qnan t)
  else if isNormal a && isE0 b then some a
  else none

/-- `d = e(a) − e(b)` on ordered operands (R120). -/
def expDiff (a b : Word) : Nat := (unbiasedExp a - unbiasedExp b).toNat

/-- A significand widened by three zero bits for G, R and S (R121). -/
def widen (m : Nat) : Nat := m <<< 3

/-- `sticky`: 1 when a bit shifted out of `B` is set (R122). -/
def stickyOut (B d : Nat) : Nat :=
  if B &&& (2 ^ min d 128 - 1) ≠ 0 then 1 else 0

/-- `B'`: `B` shifted right by `d`, the bits shifted out ORed into bit 0 (R122). -/
def alignRight (B d : Nat) : Nat := (B >>> d) ||| stickyOut B d

/-- The signed combination of magnitudes: the result's sign and `M`, or nothing on exact
cancellation (R123, R124). -/
def combine (sa sb : Bool) (A B' : Nat) : Option (Bool × Nat) :=
  if sa = sb then some (sa, A + B')
  else if B' < A then some (sa, A - B')
  else if A < B' then some (sb, B' - A)
  else none

/-- The left normalization loop: shift left while `M[115] = 0` and `eR > −16382`. The first argument
bounds the turns; `eR + 16382` of them are enough, because every turn decrements `eR` (R127). -/
def leftLoop : Nat → Nat → Int → Nat × Int
  | 0, M, eR => (M, eR)
  | n + 1, M, eR =>
    if M.testBit 115 = false ∧ -16382 < eR then leftLoop n (M <<< 1) (eR - 1) else (M, eR)

/-- Normalization: one place right with the dropped bit kept as sticky when `M[116] = 1` (R126),
otherwise left (R127). -/
def normalize (M : Nat) (eR : Int) : Nat × Int :=
  if M.testBit 116 then ((M >>> 1) ||| (M &&& 1), eR + 1)
  else leftLoop (eR + 16382).toNat M eR

/-- Round to nearest, ties to even, on the low three bits (R128). -/
def roundNearest (M : Nat) : Nat := if roundsUp M then (M >>> 3) + 1 else M >>> 3

/-- Rounding carry: `q = 2^113` becomes `2^112` with `eR + 1` (R129). -/
def roundCarry (q : Nat) (eR : Int) : Nat × Int :=
  if q = 2 ^ 113 then (q >>> 1, eR + 1) else (q, eR)

/-- Overflow and encoding (R130, R131). -/
def encodeResult (s : Bool) (q : Nat) (eR : Int) : Word :=
  if 16383 < eR then infOf s
  else if q.testBit 112 then pack s (eR + 16383).toNat (q % 2 ^ 112)
  else pack s 0 (q % 2 ^ 112)

/-- Normalization, rounding and encoding of a combined magnitude (R126 to R131). -/
def finish (s : Bool) (M : Nat) (eR : Int) : Word :=
  let n := normalize M eR
  let r := roundCarry (roundNearest n.1) n.2
  encodeResult s r.1 r.2

/-- The general path on ordered finite operands (R120 to R131). -/
def generalPath (a b : Word) : Word :=
  match combine (signBit a) (signBit b) (widen (significand a))
      (alignRight (widen (significand b)) (expDiff a b)) with
  | none => posZero
  | some (s, M) => finish s M (unbiasedExp a)

/-- FPADD on ordered operands: the special cases, then the general path (R112 to R131). -/
def fpaddOrdered (t : Nat) (a b : Word) : Word :=
  match specialCase t a b with
  | some r => r
  | none => generalPath a b

/-- `FPADD(a, b)` of an instance with `QNAN_T = t` (R133). -/
def fpadd (t : Nat) (a b : Word) : Word :=
  fpaddOrdered t (orderOperands a b).1 (orderOperands a b).2

/-- `ADDSUB(op, a, b)`: the value one request computes (R110). -/
def addsub (t : Nat) (op : BitVec 1) (a b : Word) : Word :=
  if op = 0#1 then fpadd t a b else fpadd t a (flipSign b)

/-- ADD: the request is accepted with the value `FPADD(a, b)` (R151). -/
def execAdd (a b : Word) (s : State) : Host.Outcome State Fault Refusal :=
  .next (s.accept (fpadd Config.qnanT a b))

/-- SUB: the request is accepted with the value `FPADD(a, flip_sign(b))` (R152). -/
def execSub (a b : Word) (s : State) : Host.Outcome State Fault Refusal :=
  .next (s.accept (fpadd Config.qnanT a (flipSign b)))

end Sys2Proof.Machine
end

