-- ==== Sys2Proof/Machine/Dispatch.lean ====
section
/-! DEFINITION. One arm per constructor of Instr: the meaning of every instruction. -/

namespace Sys2Proof.Machine

/-- The meaning of an instruction (40_fp_add.md R110, R151, R152). -/
def exec (i : Instr) (s : State) : Host.Outcome State Fault Refusal :=
  match i with
  | .add a b => Sys2Proof.Machine.execAdd a b s
  | .sub a b => Sys2Proof.Machine.execSub a b s

end Sys2Proof.Machine
end

