-- ==== Sys2Proof/Machine/Edge.lean ====
section
/-! DEFINITION. One rising edge of `clk`, run together by the block and the host (10_state.md R30, R38; 70_reset_and_hazards.md R190). -/

namespace Sys2Proof.Machine

/-- One clock edge: the host samples the response presented before the edge and drives the pins;
the block takes a reset, an idle edge or the request it sees. -/
def State.clockEdge (s : State) : Host.Outcome State Fault Refusal :=
  match s.edgeInput with
  | .reset => .next s.atEdge.resetEdge
  | .idle => .next s.atEdge.idleEdge
  | .request rw => exec (decodeRequest rw) s.atEdge
  | .unavailable n => .refused (.responseNotAvailable n)

/-- `s` with the request of a table row presented at the next edge. A number that is no request word
is presented by no pins (log 10). -/
def State.presentTableWord (s : State) (nbits w : Nat) : State :=
  if requestWordFits (tableBits nbits w) then s.present (requestOfNat (tableBits nbits w)) else s

end Sys2Proof.Machine
end

