-- ==== Sys2Proof/Machine/Step.lean ====
section
/-! DEFINITION. The step of the machine and the place a table row is presented at. -/

namespace Sys2Proof.Machine

/-- One step is one rising edge of `clk` (10_state.md R30). -/
def step (s : State) : Host.Outcome State Fault Refusal := s.clockEdge

/-- `s` with the request of a table row presented at the next edge: the place where the block takes
its next request from (log 10). -/
def State.withFetchWord (s : State) (nbits w : Nat) : State := s.presentTableWord nbits w

end Sys2Proof.Machine
end

