-- ==== Sys2Proof/Machine/Script.lean ====
section
/-! DEFINITION. The host's request scripts: their lines, what a line drives at each edge, when a script is legal, and where its run ends (30_encoding.md R96, R97; 70_reset_and_hazards.md R198, R200). The written form of a line stands in Machine/ScriptText.lean. -/

namespace Sys2Proof.Machine

/-- The names of R89. -/
inductive NamedWord where
  | posZero
  | negZero
  | posInf
  | negInf
  | eps
  | maxSub
  | minNormal
  | one
  | two
  | maxFinite
deriving DecidableEq, Repr

/-- The word of a name (R89). -/
def NamedWord.word : NamedWord → Word
  | .posZero => Machine.posZero
  | .negZero => Machine.negZero
  | .posInf => Machine.posInf
  | .negInf => Machine.negInf
  | .eps => Machine.eps
  | .maxSub => Machine.maxSub
  | .minNormal => Machine.minNormal
  | .one => Machine.one
  | .two => Machine.two
  | .maxFinite => Machine.maxFinite

/-- An operand of a script line (R96). -/
inductive Operand where
  /-- A hexadecimal word, most significant digit first. -/
  | hex (digits : List (Fin 16))
  /-- A name from R89. -/
  | named (n : NamedWord)
  /-- `QNAN` (R90). -/
  | qnan
  /-- `SNAN` (R91). -/
  | snan
  /-- `R<n>`: the `out_result` of the n-th response, fed back by the host. -/
  | response (n : Nat)
deriving DecidableEq, Repr

/-- A line of a script (R96); `IDLE n` stands for `n` consecutive `IDLE` lines (R97). -/
inductive Line where
  | add (a b : Operand)
  | sub (a b : Operand)
  | idle (n : Nat)
  | reset
deriving DecidableEq, Repr

/-- A line with its edge label `@t:`, if it carries one (R96). -/
structure ScriptLine where
  label : Option Nat
  line : Line
deriving DecidableEq, Repr

/-- The value of a list of hexadecimal digits, most significant first. -/
def hexValue (digits : List (Fin 16)) : Nat := digits.foldl (fun acc d => 16 * acc + d.val) 0

/-- What the host puts on a port for an operand (R96). -/
def Operand.source : Operand → Source
  | .hex ds => .bits (BitVec.ofNat 128 (hexValue ds))
  | .named n => .bits n.word
  | .qnan => .bits (Machine.qnan Config.qnanT)
  | .snan => .bits Machine.snan
  | .response n => .response n

/-- A request at an edge: `rst = 0`, `in_valid = 1` (R96). -/
def requestDrive (op : BitVec 1) (a b : Operand) : Drive where
  rst := false
  inValid := true
  inOp := op
  inA := a.source
  inB := b.source

/-- No request at edge `t`: `rst = 0`, `in_valid = 0`, "other inputs any value" (R96; log 11). -/
def idleDrive (t : Nat) : Drive where
  rst := false
  inValid := false
  inOp := RequestWord.op (Config.pinDraw t)
  inA := .bits (RequestWord.a (Config.pinDraw t))
  inB := .bits (RequestWord.b (Config.pinDraw t))

/-- Reset at edge `t`: `rst = 1`, "other inputs any value" (R96; log 11). -/
def resetDrive (t : Nat) : Drive :=
  { idleDrive t with rst := true, inValid := Config.inValidDraw t }

/-- `n` idle edges from edge `t` on (R97). -/
def idleDrives : Nat → Nat → List Drive
  | 0, _ => []
  | n + 1, t => idleDrive t :: idleDrives n (t + 1)

/-- How many edges a line takes (R96, R97). -/
def Line.edges : Line → Nat
  | .add _ _ => 1
  | .sub _ _ => 1
  | .idle n => n
  | .reset => 1

/-- What a line drives from edge `t` on (R96, R97). -/
def Line.drives (t : Nat) : Line → List Drive
  | .add a b => [requestDrive 0#1 a b]
  | .sub a b => [requestDrive 1#1 a b]
  | .idle n => idleDrives n t
  | .reset => [resetDrive t]

/-- What a script drives, its first line at edge `t` (R96). -/
def scriptDrives : Nat → List ScriptLine → List Drive
  | _, [] => []
  | t, l :: ls => l.line.drives t ++ scriptDrives (t + l.line.edges) ls

/-- `s` with the host about to run a script, its first line at the next edge, numbered 0. -/
def State.load (s : State) (script : List ScriptLine) : State :=
  { s with pending := scriptDrives 0 script }

/-- What the host knows before an edge: its number, whether a reset edge has occurred, how many
responses have been presented, and the acceptance edges of the requests in flight, oldest first. -/
structure HostView where
  edge : Nat
  resetSeen : Bool
  presented : Nat
  inFlight : List Nat
deriving DecidableEq, Repr

/-- The responses that have been presented before the edge of `v`: a request accepted at edge `t`
presents its response in interval `t + L − 1` (10_state.md R40). -/
def HostView.arrive (L : Nat) (v : HostView) : HostView :=
  { v with
    presented := v.presented + (v.inFlight.filter fun t => decide (t + L ≤ v.edge)).length
    inFlight := v.inFlight.filter fun t => decide (v.edge < t + L) }

/-- An operand is legal when a hexadecimal word has 32 digits (R96) and `R<n>` names a response,
counted from 1, that has been presented (70_reset_and_hazards.md R198). -/
def Operand.legal (presented : Nat) : Operand → Bool
  | .hex ds => ds.length == 32
  | .named _ => true
  | .qnan => true
  | .snan => true
  | .response n => decide (1 ≤ n) && decide (n ≤ presented)

/-- An edge label says the number of the line's first edge (R96; log 18). -/
def labelLegal (edge : Nat) : Option Nat → Bool
  | none => true
  | some t => t == edge

/-- A request is legal once a reset edge has occurred (70_reset_and_hazards.md R195), with operands
that are legal after `presented` responses. -/
def Line.legal (resetSeen : Bool) (presented : Nat) : Line → Bool
  | .add a b => resetSeen && a.legal presented && b.legal presented
  | .sub a b => resetSeen && a.legal presented && b.legal presented
  | .idle _ => true
  | .reset => true

/-- The host's view after a line, from its view before it with arrivals counted. A reset discards
what is in flight (70_reset_and_hazards.md R192). -/
def HostView.after (v : HostView) : Line → HostView
  | .add _ _ => { v with edge := v.edge + 1, inFlight := v.inFlight ++ [v.edge] }
  | .sub _ _ => { v with edge := v.edge + 1, inFlight := v.inFlight ++ [v.edge] }
  | .idle n => { v with edge := v.edge + n }
  | .reset => { v with edge := v.edge + 1, resetSeen := true, inFlight := [] }

/-- A script is legal from a view on, for an instance of latency `L`. -/
def scriptLegalFrom (L : Nat) : HostView → List ScriptLine → Bool
  | _, [] => true
  | v, l :: ls =>
    labelLegal v.edge l.label && l.line.legal v.resetSeen (v.arrive L).presented &&
      scriptLegalFrom L ((v.arrive L).after l.line) ls

/-- A script is legal for an instance of latency `L` (R96, R195, R198). `resetSeen` says whether a
reset edge has occurred before it: it has not from power-on. -/
def scriptLegal (L : Nat) (resetSeen : Bool) (script : List ScriptLine) : Bool :=
  scriptLegalFrom L ⟨0, resetSeen, 0, []⟩ script

/-- `t_last` from edge `t` on: the last edge at which a request was accepted and no reset edge comes
after it (70_reset_and_hazards.md R200). -/
def lastRequestFrom : Nat → Option Nat → List ScriptLine → Option Nat
  | _, last, [] => last
  | t, last, l :: ls =>
    lastRequestFrom (t + l.line.edges)
      (match l.line with
        | .add _ _ => some t
        | .sub _ _ => some t
        | .idle _ => last
        | .reset => none)
      ls

/-- The edge at which the run of a script ends: `t_last + L` (70_reset_and_hazards.md R200). -/
def endEdge (L : Nat) (script : List ScriptLine) : Option Nat :=
  (lastRequestFrom 0 none script).map fun t => t + L

end Sys2Proof.Machine
end

