-- ==== Sys2Proof/Machine/ScriptText.lean ====
section
/-! DEFINITION. The written form of a script line, read from its characters (30_encoding.md R96, R97; log 12). -/

namespace Sys2Proof.Machine

/-- Drop the comment after `;` (R96). -/
def dropComment (cs : List Char) : List Char := cs.takeWhile fun c => c != ';'

/-- Drop spaces at both ends. -/
def trimSpaces (cs : List Char) : List Char :=
  ((cs.dropWhile fun c => c == ' ').reverse.dropWhile fun c => c == ' ').reverse

/-- A decimal digit. -/
def decDigit? (c : Char) : Option Nat :=
  if '0'.toNat ≤ c.toNat ∧ c.toNat ≤ '9'.toNat then some (c.toNat - '0'.toNat) else none

/-- A decimal number of at least one digit, the digits read so far being worth `acc`. -/
def decNumberFrom : Nat → List Char → Option Nat
  | acc, [] => some acc
  | acc, c :: cs => (decDigit? c).bind fun d => decNumberFrom (10 * acc + d) cs

/-- A decimal number. -/
def decNumber? : List Char → Option Nat
  | [] => none
  | c :: cs => decNumberFrom 0 (c :: cs)

/-- A hexadecimal digit, capital or small. -/
def hexDigit? (c : Char) : Option (Fin 16) :=
  if '0'.toNat ≤ c.toNat ∧ c.toNat ≤ '9'.toNat then some (Fin.ofNat 16 (c.toNat - '0'.toNat))
  else if 'A'.toNat ≤ c.toNat ∧ c.toNat ≤ 'F'.toNat then
    some (Fin.ofNat 16 (c.toNat - 'A'.toNat + 10))
  else if 'a'.toNat ≤ c.toNat ∧ c.toNat ≤ 'f'.toNat then
    some (Fin.ofNat 16 (c.toNat - 'a'.toNat + 10))
  else none

/-- The digits of a hexadecimal word, underscores allowed anywhere between them (R96). -/
def hexDigits? : List Char → Option (List (Fin 16))
  | [] => some []
  | c :: cs =>
    if c = '_' then hexDigits? cs
    else (hexDigit? c).bind fun d => (hexDigits? cs).map fun ds => d :: ds

/-- A hexadecimal word, with or without `0x` before it. -/
def hexWord? : List Char → Option Operand
  | '0' :: 'x' :: cs => (hexDigits? cs).map .hex
  | cs => (hexDigits? cs).map .hex

/-- A name of R89, R90 or R91. -/
def namedOperand? (cs : List Char) : Option Operand :=
  if cs = ['+', '0'] then some (.named .posZero)
  else if cs = ['−', '0'] then some (.named .negZero)
  else if cs = ['+', 'I', 'N', 'F'] then some (.named .posInf)
  else if cs = ['−', 'I', 'N', 'F'] then some (.named .negInf)
  else if cs = ['E', 'P', 'S'] then some (.named .eps)
  else if cs = ['M', 'A', 'X', '_', 'S', 'U', 'B'] then some (.named .maxSub)
  else if cs = ['M', 'I', 'N', '_', 'N', 'O', 'R', 'M', 'A', 'L'] then some (.named .minNormal)
  else if cs = ['O', 'N', 'E'] then some (.named .one)
  else if cs = ['T', 'W', 'O'] then some (.named .two)
  else if cs = ['M', 'A', 'X', '_', 'F', 'I', 'N', 'I', 'T', 'E'] then some (.named .maxFinite)
  else if cs = ['Q', 'N', 'A', 'N'] then some .qnan
  else if cs = ['S', 'N', 'A', 'N'] then some .snan
  else none

/-- An operand: a name, `R<n>` or a hexadecimal word (R96). -/
def parseOperand (cs : List Char) : Option Operand :=
  match namedOperand? cs with
  | some o => some o
  | none =>
    match cs with
    | 'R' :: ds => (decNumber? ds).map .response
    | _ => hexWord? cs

/-- Two operands with a comma between them (R96). -/
def parseOperands (cs : List Char) : Option (Operand × Operand) :=
  (parseOperand (trimSpaces (cs.takeWhile fun c => c != ','))).bind fun a =>
    match cs.dropWhile fun c => c != ',' with
    | ',' :: rest => (parseOperand (trimSpaces rest)).map fun b => (a, b)
    | _ => none

/-- A line after its label (R96, R97). -/
def parseBody (cs : List Char) : Option Line :=
  match cs with
  | 'A' :: 'D' :: 'D' :: ' ' :: rest => (parseOperands rest).map fun p => .add p.1 p.2
  | 'S' :: 'U' :: 'B' :: ' ' :: rest => (parseOperands rest).map fun p => .sub p.1 p.2
  | ['I', 'D', 'L', 'E'] => some (.idle 1)
  | 'I' :: 'D' :: 'L' :: 'E' :: ' ' :: rest => (decNumber? (trimSpaces rest)).map .idle
  | ['R', 'E', 'S', 'E', 'T'] => some .reset
  | _ => none

/-- A line: an optional edge label `@t:`, the line, an optional comment after `;` (R96). -/
def parseLine (cs : List Char) : Option ScriptLine :=
  match trimSpaces (dropComment cs) with
  | '@' :: rest =>
    (decNumber? (rest.takeWhile fun c => c != ':')).bind fun t =>
      match rest.dropWhile fun c => c != ':' with
      | ':' :: body => (parseBody (trimSpaces body)).map fun l => ⟨some t, l⟩
      | _ => none
  | body => (parseBody body).map fun l => ⟨none, l⟩

/-- A script: a list of lines in edge order (R96). -/
def parseScript : List (List Char) → Option (List ScriptLine)
  | [] => some []
  | cs :: rest => (parseLine cs).bind fun l => (parseScript rest).map fun ls => l :: ls

end Sys2Proof.Machine
end

