-- ==== Sys2Proof/Machine/Container.lean ====
section
/-! DEFINITION. The same adder in the 128-bit container of 40_fp_add.md R121 (92_eei_decisions.md D27): every significand is a `u128` word with the WideInt laws of 00_scope.md R11 and R20, and the left normalization is one shift by a leading-zero count (R127). A second design, for the claim that the container changes nothing (R125; log 15). -/

namespace Sys2Proof.Machine

/-- The trailing significand field as a `u128` mask. -/
def trailingMask : Word := 0x0000_FFFF_FFFF_FFFF_FFFF_FFFF_FFFF_FFFF#128

/-- The implicit bit `2^112` as a `u128`. -/
def implicitBit : Word := 0x0001_0000_0000_0000_0000_0000_0000_0000#128

/-- `m(x)` as a `u128` (R86). -/
def significand128 (x : Word) : Word :=
  if expField x = 0 then x &&& trailingMask else (x &&& trailingMask) ||| implicitBit

/-- `sticky`, from the document's mask `(1 ≪ d) − 1`, which is all ones for `d ≥ 128` (R122). -/
def stickyOut128 (B : Word) (d : Nat) : Word :=
  if B &&& (subBorrow (1#128 <<< d) 1#128).2 ≠ 0#128 then 1#128 else 0#128

/-- `B'` in the container (R122). -/
def alignRight128 (B : Word) (d : Nat) : Word := (B >>> d) ||| stickyOut128 B d

/-- The signed combination in the container (R123, R124). -/
def combine128 (sa sb : Bool) (A B' : Word) : Option (Bool × Word) :=
  if sa = sb then some (sa, (addCarry A B').2)
  else if B' < A then some (sa, (subBorrow A B').2)
  else if A < B' then some (sb, (subBorrow B' A).2)
  else none

/-- The left shift of R127: `lzc_128(M) − 12 = 115 − msb(M)` places, limited so that the exponent
does not fall below −16382 (90_conflicts.md C2). -/
def leftPlaces (M : Word) (eR : Int) : Nat := min (lzc128 M - 12) (eR + 16382).toNat

/-- Normalization in the container (R126, R127). -/
def normalize128 (M : Word) (eR : Int) : Word × Int :=
  if M.getLsbD 116 then ((M >>> 1) ||| (M &&& 1#128), eR + 1)
  else (M <<< leftPlaces M eR, eR - leftPlaces M eR)

/-- Rounding in the container (R128). -/
def roundNearest128 (M : Word) : Word :=
  if M.getLsbD 2 && (M.getLsbD 3 || M.getLsbD 1 || M.getLsbD 0) then
    (addCarry (M >>> 3) 1#128).2
  else M >>> 3

/-- Rounding carry in the container (R129). -/
def roundCarry128 (q : Word) (eR : Int) : Word × Int :=
  if q = 1#128 <<< 113 then (q >>> 1, eR + 1) else (q, eR)

/-- The fields of a result ORed together in the container (R130, R131). -/
def assemble128 (s : Bool) (E : Nat) (T : Word) : Word :=
  (if s then 1#128 <<< 127 else 0#128) ||| (BitVec.ofNat 128 E <<< 112) ||| (T &&& trailingMask)

/-- Overflow and encoding in the container (R130, R131). -/
def encodeResult128 (s : Bool) (q : Word) (eR : Int) : Word :=
  if 16383 < eR then assemble128 s 32767 0#128
  else if q.getLsbD 112 then assemble128 s (eR + 16383).toNat q
  else assemble128 s 0 q

/-- The general path in the container (R120 to R131). -/
def generalPath128 (a b : Word) : Word :=
  match combine128 (signBit a) (signBit b) (significand128 a <<< 3)
      (alignRight128 (significand128 b <<< 3) (expDiff a b)) with
  | none => posZero
  | some (s, M) =>
    let n := normalize128 M (unbiasedExp a)
    let r := roundCarry128 (roundNearest128 n.1) n.2
    encodeResult128 s r.1 r.2

/-- FPADD in the container (R133). -/
def fpadd128 (t : Nat) (a b : Word) : Word :=
  match specialCase t (orderOperands a b).1 (orderOperands a b).2 with
  | some r => r
  | none => generalPath128 (orderOperands a b).1 (orderOperands a b).2

end Sys2Proof.Machine
end

