-- ==== Sys2Proof/Machine/Value.lean ====
section
/-! DEFINITION. The value of a finite word and what it is to round correctly (30_encoding.md R87, 40_fp_add.md R141, R142). Exact rational arithmetic; no step of the machine uses it. -/

namespace Sys2Proof.Machine

/-- `v(x) = (−1)^s(x) · m(x) · 2^(e(x) − 112)` of a finite word (R87). -/
def value (x : Word) : ℚ :=
  (if signBit x then -1 else 1) * (significand x : ℚ) * 2 ^ (unbiasedExp x - 112)

/-- The smallest magnitude that rounds to an infinity: half an ulp above `MAX_FINITE`, since the tie
goes to the even significand, which is that of `2^16384` (R130, R141). -/
def overflowBound : ℚ := (2 ^ 114 - 1) * 2 ^ (16270 : Int)

/-- `r` is a finite word nearest to `z` among the finite words, and of two nearest values it is the
one with the even significand (R141). -/
def NearestEven (z : ℚ) (r : Word) : Prop :=
  isFinite r = true ∧
  ∀ w, isFinite w = true →
    |value r - z| ≤ |value w - z| ∧
    (|value r - z| = |value w - z| → value w ≠ value r → significand r % 2 = 0)

end Sys2Proof.Machine
end

