-- ==== Sys2Proof/Safety.lean ====
section
/-! DEFINITION. The terms the claims use: what is in flight, the response stream, the invariant, the premises on what the host drives, and runs (10_state.md R40, R42, R66; 70_reset_and_hazards.md R195, R200). -/

namespace Sys2Proof.Machine

/-- The run of the machine over `k` edges. -/
abbrev runEdges (k : Nat) (s : State) : Host.Outcome State Fault Refusal :=
  Host.Core.run Sys2Proof.core k s

/-- What every `stage[k]` holds as far as a host can see: the response, or nothing
(10_state.md R39). The result of a stage with `valid = 0` is left out: it has no meaning. -/
def State.visible (s : State) : List (Option Word) := s.stages.map Stage.response

/-- The responses still in the pipeline, oldest first. -/
def State.inFlight (s : State) : List Word := s.stages.reverse.filterMap Stage.response

/-- The responses presented so far and those still to come, in order (20_memory.md R66). Before the
first reset edge what is in flight has no meaning (10_state.md R44). -/
def State.stream (s : State) : List Word := s.responses ++ s.inFlight

/-- The result of the request the next edge accepts, if it accepts one (10_state.md R37). -/
def State.acceptedResult (s : State) : Option Word :=
  match s.edgeInput with
  | .request rw =>
    some (addsub Config.qnanT (RequestWord.op rw) (RequestWord.a rw) (RequestWord.b rw))
  | .reset => none
  | .idle => none
  | .unavailable _ => none

/-- The launch premise of 70_reset_and_hazards.md R195: a reset edge has occurred and no request was
accepted before it. -/
structure State.Launched (s : State) : Prop where
  resetSeen : s.resetSeen = true
  noEarlyRequest : s.earlyRequest = false

/-- A state before the first reset edge, with no request accepted yet: any stages whatever
(10_state.md R44), and nothing sampled. -/
structure State.BeforeLaunch (s : State) : Prop where
  noReset : s.resetSeen = false
  noEarlyRequest : s.earlyRequest = false
  noResponse : s.responses = []

/-- No stage is valid: nothing is in flight, as after a reset edge (10_state.md R43). -/
def State.Empty (s : State) : Prop := ∀ st ∈ s.stages, st.valid = false

/-- A request script can start here, with no response taken yet: the block is launched and nothing is
in flight, or it has not seen its first reset edge (70_reset_and_hazards.md R195). -/
def State.AtStart (s : State) : Prop :=
  (s.Launched ∧ s.Empty ∧ s.responses = []) ∨ s.BeforeLaunch

/-- No reset is driven at the next `k` edges. -/
def State.NoReset (s : State) (k : Nat) : Prop := ∀ d ∈ s.pending.take k, d.rst = false

/-- The host feeds no numbered response back at the next `k` edges, so it can drive all of them. -/
def State.Drivable (s : State) (k : Nat) : Prop :=
  ∀ d ∈ s.pending.take k, ∀ n, d.inA ≠ .response n ∧ d.inB ≠ .response n

/-- The host accepts nothing more: every pending drive is an idle one. -/
def State.Quiet (s : State) : Prop := ∀ d ∈ s.pending, d.rst = false ∧ d.inValid = false

/-- The results of the requests a list of drives presents, when no operand is fed back. -/
def literalResults (ds : List Drive) : List Word :=
  ds.filterMap fun d =>
    match d.inValid, d.inA, d.inB with
    | true, .bits a, .bits b => some (addsub Config.qnanT d.inOp a b)
    | _, _, _ => none

/-- Every operand of a list of drives is given as bits. -/
def LiteralDrives (ds : List Drive) : Prop :=
  ∀ d ∈ ds, ∃ a b, d.inA = .bits a ∧ d.inB = .bits b

/-- A word that, if it is a NaN, is one of the two NaN words an instance produces
(40_fp_add.md R112, R114; 60_exceptions.md R171). -/
def CanonicalNaN (w : Word) : Prop :=
  isNaN w = true → w = qnan Config.qnanT ∨ w = snan

/-- The invariant every step keeps, from power-on as from reset. What it says of the stages it says
once a reset edge has occurred: before that they hold anything (10_state.md R44). -/
structure State.Inv (s : State) : Prop where
  /-- `L` is fixed for an instance (10_state.md R34). -/
  latency : s.latency = Config.latency
  /-- A stage with `valid = 0` holds a free draw (10_state.md R38, R43; U3 to U5). -/
  idleIsDrawn : s.resetSeen = true → ∀ st ∈ s.stages, st.valid = false →
    ∃ n, n < s.draws ∧ st.result = Config.draw n
  /-- The NaN words of an instance are `QNAN` and `SNAN` (60_exceptions.md R171). -/
  stageNaN : s.resetSeen = true → ∀ st ∈ s.stages, st.valid = true → CanonicalNaN st.result
  /-- The same of every response presented. -/
  responseNaN : ∀ w ∈ s.responses, CanonicalNaN w
  /-- Nothing is sampled before the first reset edge (70_reset_and_hazards.md R195). -/
  nothingBeforeReset : s.resetSeen = false → s.responses = []

end Sys2Proof.Machine
end

