-- ==== Sys2Proof/Certificates/Slice0/Obligations.lean ====
section
/-! DEFINITION. The statements for the provers. Each docstring says which rule of spec/ it formalises. -/

open Sys2Proof Sys2Proof.Machine

/-! ## Requests and their encoding -/

/-- Request words written out from the programs of 95_test_vectors.md (P1, P4) decode to the
requests they stand for (30_encoding.md R81, R83). -/
def Obligations.ListedRequestWordsDecode : Prop :=
  decode 0x0_3FFF_0000_0000_0000_0000_0000_0000_0000_4000_0000_0000_0000_0000_0000_0000_0000 =
      .ok (.add one two) ∧
  decode 0x1_3FFF_0000_0000_0000_0000_0000_0000_0000_3FFF_0000_0000_0000_0000_0000_0000_0000 =
      .ok (.sub one one) ∧
  decode 0x0_7FFF_0000_0000_0000_0000_0000_0000_0000_FFFF_0000_0000_0000_0000_0000_0000_0000 =
      .ok (.add posInf negInf) ∧
  decode 0x1_0001_0000_0000_0000_0000_0000_0000_0000_0000_0000_0000_0000_0000_0000_0000_0001 =
      .ok (.sub minNormal eps) ∧
  decode 0x1_8000_0000_0000_0000_0000_0000_0000_0000_0000_0000_0000_0000_0000_0000_0000_0000 =
      .ok (.sub negZero posZero)

/-- Decoding the request word of an instruction gives it back, through the decoder and through the
table's numbering, whatever the operands (30_encoding.md R80, R81, R83). -/
def Obligations.DecodeInvertsEncode : Prop :=
  ∀ i : Instr, decode (encode i).toNat = .ok i ∧
    decodeTableWord 257 (encode i).toNat = some i ∧
    decodeTableWord 264 (encode i).toNat = some i

/-- R93: every request word is defined, it is the word of one instruction, that instruction is
well-formed, and executing it completes in every state. -/
def Obligations.EveryRequestWordIsDefined : Prop :=
  ∀ w : Nat, w < 2 ^ 257 → ∃ i : Instr,
    decode w = .ok i ∧ i.wellFormed = true ∧ (encode i).toNat = w ∧
    ∀ s : State, ∃ s', exec i s = .next s'

/-- R81: `RW[256] = op`, `RW[255:128] = a`, `RW[127:0] = b`, and R83's use of bit 256. -/
def Obligations.OperationSelectIsBit256 : Prop :=
  ∀ w : Nat, w < 2 ^ 257 →
    decode w = .ok (if w.testBit 256
      then .sub (BitVec.ofNat 128 (w / 2 ^ 128)) (BitVec.ofNat 128 (w % 2 ^ 128))
      else .add (BitVec.ofNat 128 (w / 2 ^ 128)) (BitVec.ofNat 128 (w % 2 ^ 128)))

/-- A number with a bit above bit 256 is no request word and is rejected by name. The model's
choice: log 10. -/
def Obligations.OverwideNumbersAreRejected : Prop :=
  ∀ w : Nat, 2 ^ 257 ≤ w → decode w = .error .notARequestWord

/-- A table row presented at the next edge is the request the step then runs (log 10), in the state
with the host's side of the edge done (log 1, 7, 20). -/
def Obligations.PresentedTableWordRuns : Prop :=
  ∀ (s : State) (nbits w : Nat) (i : Instr), decodeTableWord nbits w = some i →
    step (s.withFetchWord nbits w) = exec i { s with
      pending := s.pending.tail
      responses := s.responses ++ s.presented.toList
      earlyRequest := s.earlyRequest || !s.resetSeen }

/-! ## The binary128 word -/

/-- R84: a word is `{s, E, T} = s · 2^127 + E · 2^112 + T`, with the fields in their ranges, and the
word packed from three fields has those fields. -/
def Obligations.WordIsItsFields : Prop :=
  (∀ x : Word, x = pack (signBit x) (expField x) (trailing x) ∧
    x.toNat = (signBit x).toNat * 2 ^ 127 + expField x * 2 ^ 112 + trailing x ∧
    expField x ≤ 32767 ∧ trailing x ≤ 2 ^ 112 - 1 ∧ signBit x = x.getLsbD 127) ∧
  (∀ (s : Bool) (E T : Nat), E ≤ 32767 → T ≤ 2 ^ 112 - 1 →
    signBit (pack s E T) = s ∧ expField (pack s E T) = E ∧ trailing (pack s E T) = T)

/-- R88: the classes by their conditions on the fields, and exactly one of NaN, infinity, normal and
E0 for every word: the one `classOf` names. -/
def Obligations.ExactlyOneClassHolds : Prop :=
  ∀ x : Word,
    (isNaN x = true ↔ expField x = 32767 ∧ trailing x ≠ 0) ∧
    (isInf x = true ↔ expField x = 32767 ∧ trailing x = 0) ∧
    (isFinite x = true ↔ expField x ≠ 32767) ∧
    (isNormal x = true ↔ 1 ≤ expField x ∧ expField x ≤ 32766) ∧
    (isE0 x = true ↔ expField x = 0) ∧
    (isZero x = true ↔ expField x = 0 ∧ trailing x = 0) ∧
    (isSubnormal x = true ↔ expField x = 0 ∧ trailing x ≠ 0) ∧
    (isNaN x = true ↔ classOf x = .nan) ∧ (isInf x = true ↔ classOf x = .infinity) ∧
    (isNormal x = true ↔ classOf x = .normal) ∧ (isE0 x = true ↔ classOf x = .e0)

/-- R85, R86: the exponent of a finite word and the significand with implicit bit, and their
ranges. -/
def Obligations.ExponentAndSignificand : Prop :=
  ∀ x : Word,
    (1 ≤ expField x → expField x ≤ 32766 → unbiasedExp x = expField x - 16383) ∧
    (expField x = 0 → unbiasedExp x = -16382) ∧
    (isFinite x = true → -16382 ≤ unbiasedExp x ∧ unbiasedExp x ≤ 16383) ∧
    (expField x = 0 → significand x = trailing x) ∧
    (expField x ≠ 0 → significand x = trailing x ||| 2 ^ 112 ∧
      significand x = trailing x + 2 ^ 112) ∧
    significand x < 2 ^ 113

/-- R89: the named words and their values (R87). -/
def Obligations.NamedWordsHaveTheirValues : Prop :=
  (posZero = 0#128 ∧ value posZero = 0 ∧ signBit posZero = false) ∧
  (negZero = 0x8000_0000_0000_0000_0000_0000_0000_0000#128 ∧ value negZero = 0 ∧
    signBit negZero = true) ∧
  (posInf = 0x7FFF_0000_0000_0000_0000_0000_0000_0000#128 ∧ isInf posInf = true ∧
    signBit posInf = false) ∧
  (negInf = 0xFFFF_0000_0000_0000_0000_0000_0000_0000#128 ∧ isInf negInf = true ∧
    signBit negInf = true) ∧
  (eps = 1#128 ∧ value eps = 2 ^ (-16494 : Int)) ∧
  (maxSub = 0x0000_FFFF_FFFF_FFFF_FFFF_FFFF_FFFF_FFFF#128 ∧
    value maxSub = (2 ^ 112 - 1) * 2 ^ (-16494 : Int)) ∧
  (minNormal = 0x0001_0000_0000_0000_0000_0000_0000_0000#128 ∧
    value minNormal = 2 ^ (-16382 : Int)) ∧
  (one = 0x3FFF_0000_0000_0000_0000_0000_0000_0000#128 ∧ value one = 1) ∧
  (two = 0x4000_0000_0000_0000_0000_0000_0000_0000#128 ∧ value two = 2) ∧
  (maxFinite = 0x7FFE_FFFF_FFFF_FFFF_FFFF_FFFF_FFFF_FFFF#128 ∧
    value maxFinite = (2 ^ 113 - 1) * 2 ^ (16271 : Int))

/-- R90, R91: for every admitted `QNAN_T`, `QNAN` and `SNAN` are NaNs with the stated fields, and
they are different words. -/
def Obligations.NaNWordsHaveTheirFields : Prop :=
  (∀ t : Nat, qnanTOk t = true → isNaN (qnan t) = true ∧ signBit (qnan t) = false ∧
    expField (qnan t) = 32767 ∧ trailing (qnan t) = t ∧ qnan t ≠ snan) ∧
  (isNaN snan = true ∧ signBit snan = true ∧ expField snan = 32767 ∧ trailing snan = 1) ∧
  qnanTOk Config.qnanT = true

/-- R150: `flip_sign` inverts bit 127 and leaves bits 126..0 unchanged, for every word. -/
def Obligations.FlipSignInvertsOnlyBit127 : Prop :=
  ∀ (x : Word) (i : Nat), i < 128 →
    (flipSign x).getLsbD i = if i = 127 then !x.getLsbD i else x.getLsbD i

/-- R63: limb 0 is bits 63..0 and limb 1 is bits 127..64 of the word, and the two limbs give the
word back. -/
def Obligations.LimbsHoldTheWord : Prop :=
  ∀ x : Word, ofLimbs (limb0 x) (limb1 x) = x ∧
    ∀ i, i < 64 → (limb0 x).getLsbD i = x.getLsbD i ∧ (limb1 x).getLsbD i = x.getLsbD (64 + i)

/-! ## FPADD: special cases -/

/-- R112, R113, R114: the results of infinities and NaNs, whatever the operand order. -/
def Obligations.InfinityAndNaNResults : Prop :=
  ∀ (t : Nat) (a b : Word),
    (isInf a = true → isInf b = true → signBit a = signBit b → fpadd t a b = a) ∧
    (isInf a = true → isInf b = true → signBit a ≠ signBit b → fpadd t a b = snan) ∧
    (isInf a = true → isFinite b = true → fpadd t a b = a) ∧
    (isFinite a = true → isInf b = true → fpadd t a b = b) ∧
    (isNaN a = true ∨ isNaN b = true → fpadd t a b = qnan t)

/-- R115: a normal word with an E0 word gives the normal unchanged, bit for bit, in both orders. -/
def Obligations.NormalWithE0GivesTheNormal : Prop :=
  ∀ (t : Nat) (a b : Word), isNormal a = true → isE0 b = true →
    fpadd t a b = a ∧ fpadd t b a = a

/-- R116: when no special case applies to ordered operands, both are finite, and either both are
normal or both are E0 words. -/
def Obligations.GeneralPathOperands : Prop :=
  ∀ (t : Nat) (a b : Word), expField b ≤ expField a →
    (specialCase t a b = none ↔
      (isFinite a = true ∧ isFinite b = true ∧
        ((isNormal a = true ∧ isNormal b = true) ∨ (isE0 a = true ∧ isE0 b = true))))

/-- 60_exceptions.md R171: a NaN result is `QNAN` exactly with a NaN operand and `SNAN` exactly on an
invalid operation, and a host reads that off the word. -/
def Obligations.NaNResultsNameTheirCondition : Prop :=
  ∀ (t : Nat) (a b : Word), qnanTOk t = true →
    (readResult (fpadd t a b) = .invalid ↔ invalidOperation a b = true) ∧
    (readResult (fpadd t a b) = .nan ↔ nanPropagation a b = true) ∧
    (nanPropagation a b = true → fpadd t a b = qnan t) ∧
    (invalidOperation a b = true → fpadd t a b = snan)

/-! ## FPADD: the general path -/

/-- R122: no set bit is lost by the alignment without being kept as sticky. The aligned addend is the
exact quotient when the shifted-out bits are 0 and the quotient with bit 0 set otherwise; a shift of
128 or more leaves 1 for a nonzero `B` and 0 for a zero. -/
def Obligations.AlignmentKeepsSticky : Prop :=
  ∀ B d : Nat, B < 2 ^ 116 →
    (B % 2 ^ d = 0 → alignRight B d = B / 2 ^ d) ∧
    (B % 2 ^ d ≠ 0 → alignRight B d = (B / 2 ^ d) ||| 1) ∧
    (128 ≤ d → alignRight B d = if B = 0 then 0 else 1) ∧
    alignRight B 0 = B

/-- R124: on the general path opposite signs and equal magnitudes give `+0`, and equal magnitudes come
only from `d = 0` and equal significands; so `x + (−x) = +0` for every finite `x`, and zeros of
opposite signs give `+0`. -/
def Obligations.CancellationGivesPlusZero : Prop :=
  (∀ (t : Nat) (x : Word), isFinite x = true → fpadd t x (flipSign x) = posZero) ∧
  (∀ t : Nat, fpadd t posZero negZero = posZero ∧ fpadd t negZero posZero = posZero) ∧
  (∀ (t : Nat) (a b : Word), expField b ≤ expField a → specialCase t a b = none →
    widen (significand a) = alignRight (widen (significand b)) (expDiff a b) →
    expDiff a b = 0 ∧ significand a = significand b ∧
    (signBit a ≠ signBit b → fpadd t a b = posZero))

/-- R127: the left normalization loop is one shift by `min(115 − msb(M), eR + 16382)` places, for
`M = 0` by `eR + 16382` places. -/
def Obligations.LeftLoopIsOneShift : Prop :=
  ∀ (M : Nat) (eR : Int), M < 2 ^ 116 → -16382 ≤ eR →
    let k := if M = 0 then (eR + 16382).toNat else min (115 - Nat.log2 M) (eR + 16382).toNat
    normalize M eR = (M * 2 ^ k, eR - k)

/-- R128: `q` is `M >> 3`, incremented exactly when `G = 1 and (Lk = 1 or R = 1 or S = 1)`; that is
the integer nearest to `M / 8`, and of two nearest the even one; and it has at most 114 bits. -/
def Obligations.RoundingIsNearestEven : Prop :=
  ∀ M : Nat,
    roundNearest M = M / 8 + (if M.testBit 2 = true ∧
      (M.testBit 3 = true ∨ M.testBit 1 = true ∨ M.testBit 0 = true) then 1 else 0) ∧
    (M < 2 ^ 116 → roundNearest M < 2 ^ 114) ∧
    |8 * (roundNearest M : Int) - M| ≤ 4 ∧
    (|8 * (roundNearest M : Int) - M| = 4 → roundNearest M % 2 = 0)

/-- R125: no value of the general path exceeds 117 bits, so the 128-bit container never carries out
and never borrows. -/
def Obligations.DatapathStaysIn117Bits : Prop :=
  ∀ (t : Nat) (a b : Word), expField b ≤ expField a → specialCase t a b = none →
    let A := widen (significand a)
    let B' := alignRight (widen (significand b)) (expDiff a b)
    A < 2 ^ 116 ∧ B' < 2 ^ 116 ∧
    (addCarry (BitVec.ofNat 128 A) (BitVec.ofNat 128 B')).1 = false ∧
    (B' ≤ A → (subBorrow (BitVec.ofNat 128 A) (BitVec.ofNat 128 B')).1 = false) ∧
    (A ≤ B' → (subBorrow (BitVec.ofNat 128 B') (BitVec.ofNat 128 A)).1 = false) ∧
    ∀ s M, combine (signBit a) (signBit b) A B' = some (s, M) →
      M < 2 ^ 117 ∧ (normalize M (unbiasedExp a)).1 < 2 ^ 116 ∧
      roundNearest (normalize M (unbiasedExp a)).1 ≤ 2 ^ 113

/-- R125, R20: the adder built on 128-bit words, with one leading-zero shift in place of the loop,
computes the same function as the adder on mathematical integers. -/
def Obligations.ContainerDesignAgrees : Prop :=
  ∀ (t : Nat) (a b : Word), fpadd128 t a b = fpadd t a b

/-- R132: what the encoder is given and what it makes. In its first branch `eR = −16382` and
`q < 2^112`; in its second `−16382 ≤ eR ≤ 16383` and `2^112 ≤ q < 2^113`, so `E` is in `1 .. 32766`;
and the result's value is `(−1)^s · q · 2^(eR − 112)`. -/
def Obligations.EncodedResultHasItsValue : Prop :=
  ∀ (s : Bool) (M : Nat) (eR : Int), M < 2 ^ 117 → -16382 ≤ eR → eR ≤ 16383 →
    let n := normalize M eR
    let r := roundCarry (roundNearest n.1) n.2
    r.2 ≤ 16383 →
      isFinite (finish s M eR) = true ∧ signBit (finish s M eR) = s ∧
      (r.1.testBit 112 = false → r.2 = -16382 ∧ r.1 < 2 ^ 112 ∧ expField (finish s M eR) = 0) ∧
      (r.1.testBit 112 = true → -16382 ≤ r.2 ∧ 2 ^ 112 ≤ r.1 ∧ r.1 < 2 ^ 113 ∧
        1 ≤ expField (finish s M eR) ∧ expField (finish s M eR) ≤ 32766) ∧
      value (finish s M eR) = (if s then -1 else 1) * (r.1 : ℚ) * 2 ^ (r.2 - 112)

/-! ## FPADD: laws -/

/-- R140: addition commutes bit for bit, for every pair of words. -/
def Obligations.AdditionCommutes : Prop :=
  ∀ (t : Nat) (a b : Word), fpadd t a b = fpadd t b a

/-- R143: the table of zeros. -/
def Obligations.ZeroTable : Prop :=
  ∀ t : Nat,
    fpadd t posZero posZero = posZero ∧ fpadd t negZero negZero = negZero ∧
    fpadd t posZero negZero = posZero ∧ fpadd t negZero posZero = posZero ∧
    (∀ x : Word, isNormal x = true → fpadd t x posZero = x ∧ fpadd t x negZero = x) ∧
    (∀ x : Word, isSubnormal x = true → fpadd t x posZero = x ∧ fpadd t x negZero = x) ∧
    (∀ x : Word, isFinite x = true → fpadd t x (flipSign x) = posZero)

/-- R141: correct rounding. For finite operands that are not a normal with a nonzero subnormal, the
sum is the nearest word to the exact sum, ties to even; a sum that rounds to `2^16384` or more in
magnitude gives the infinity of its sign; an exact zero sum is `+0` when the signs differ and the
zero of the common sign otherwise. -/
def Obligations.AdditionRoundsCorrectly : Prop :=
  ∀ (t : Nat) (a b : Word), isFinite a = true → isFinite b = true →
    ¬ (isNormal a = true ∧ isSubnormal b = true) → ¬ (isSubnormal a = true ∧ isNormal b = true) →
    (|value a + value b| < overflowBound → NearestEven (value a + value b) (fpadd t a b)) ∧
    (overflowBound ≤ value a + value b → fpadd t a b = posInf) ∧
    (value a + value b ≤ -overflowBound → fpadd t a b = negInf) ∧
    (value a + value b = 0 → signBit a ≠ signBit b → fpadd t a b = posZero) ∧
    (value a + value b = 0 → signBit a = signBit b → fpadd t a b = zeroOf (signBit a))

/-- R152 with R141: subtraction is correctly rounded in the same sense. -/
def Obligations.SubtractionRoundsCorrectly : Prop :=
  ∀ (t : Nat) (a b : Word), isFinite a = true → isFinite b = true →
    ¬ (isNormal a = true ∧ isSubnormal b = true) → ¬ (isSubnormal a = true ∧ isNormal b = true) →
    (|value a - value b| < overflowBound → NearestEven (value a - value b) (addsub t 1#1 a b)) ∧
    (overflowBound ≤ value a - value b → addsub t 1#1 a b = posInf) ∧
    (value a - value b ≤ -overflowBound → addsub t 1#1 a b = negInf) ∧
    (value a - value b = 0 → signBit a = signBit b → addsub t 1#1 a b = posZero) ∧
    (value a - value b = 0 → signBit a ≠ signBit b → addsub t 1#1 a b = zeroOf (signBit a))

/-- R142: a normal with a nonzero subnormal gives the normal. With `E(a) ≥ 115` that is the correctly
rounded sum; with smaller exponents it can differ: `MIN_NORMAL + (−EPS)` gives `MIN_NORMAL`, where
`MAX_SUB` is the exact sum, and the same happens at `E(a) = 114`. -/
def Obligations.NormalSubnormalDeparture : Prop :=
  (∀ (t : Nat) (a b : Word), isNormal a = true → isSubnormal b = true → fpadd t a b = a) ∧
  (∀ (t : Nat) (a b : Word), isNormal a = true → isSubnormal b = true → 115 ≤ expField a →
    NearestEven (value a + value b) (fpadd t a b)) ∧
  (∀ t : Nat, fpadd t minNormal (flipSign eps) = minNormal ∧
    value maxSub = value minNormal + value (flipSign eps) ∧
    ¬ NearestEven (value minNormal + value (flipSign eps)) minNormal) ∧
  (∃ a b : Word, expField a = 114 ∧ isSubnormal b = true ∧
    ∀ t : Nat, ¬ NearestEven (value a + value b) (fpadd t a b))

/-- R130, R171: with finite operands the result is an infinity exactly when the exact sum is at or
beyond the overflow bound, and it has the sum's sign. -/
def Obligations.OverflowGivesSignedInfinity : Prop :=
  ∀ (t : Nat) (a b : Word), isFinite a = true → isFinite b = true →
    (isInf (fpadd t a b) = true ↔ overflowBound ≤ |value a + value b|) ∧
    (isInf (fpadd t a b) = true → signBit (fpadd t a b) = decide (value a + value b < 0))

/-- R171 (underflow), R127: a sum below `MIN_NORMAL` in magnitude is exact, a subnormal or a zero,
outside the case of R115. -/
def Obligations.TinySumsAreExact : Prop :=
  ∀ (t : Nat) (a b : Word), isFinite a = true → isFinite b = true →
    ¬ (isNormal a = true ∧ isSubnormal b = true) → ¬ (isSubnormal a = true ∧ isNormal b = true) →
    |value a + value b| < 2 ^ (-16382 : Int) →
    isE0 (fpadd t a b) = true ∧ value (fpadd t a b) = value a + value b

/-- R151 (corner case): `a` with the same word gives `2a` exactly unless it overflows. -/
def Obligations.DoublingIsExact : Prop :=
  ∀ (t : Nat) (x : Word),
    (expField x < 32766 → isFinite (fpadd t x x) = true ∧ value (fpadd t x x) = 2 * value x) ∧
    (expField x = 32766 → fpadd t x x = infOf (signBit x))

/-- R152 (corner case): `SUB(a, b) = flip_sign(SUB(b, a))` except when the result is a zero or a
NaN, for every admitted `QNAN_T` (R8). -/
def Obligations.SubtractionIsAntisymmetric : Prop :=
  ∀ (t : Nat) (a b : Word), qnanTOk t = true →
    isZero (addsub t 1#1 a b) = false → isNaN (addsub t 1#1 a b) = false →
    addsub t 1#1 a b = flipSign (addsub t 1#1 b a)

/-! ## Instructions and the pipeline -/

/-- R151, R38: ADD completes in every state: `FPADD(a, b)` enters `stage[1]` as valid, every other
stage takes the one before it, and nothing else of the state changes. -/
def Obligations.AddCompletes : Prop :=
  ∀ (a b : Word) (s : State), ∃ s', exec (.add a b) s = .next s' ∧
    s'.stage1 = ⟨true, fpadd Config.qnanT a b⟩ ∧ s'.latency = s.latency ∧
    (∀ k, 1 ≤ k → k < s.latency → s'.stage? (k + 1) = s.stage? k) ∧
    s'.pending = s.pending ∧ s'.responses = s.responses ∧ s'.resetSeen = s.resetSeen ∧
    s'.earlyRequest = s.earlyRequest ∧ s'.draws = s.draws

/-- R152, R150, R38: SUB completes in every state: `FPADD(a, flip_sign(b))` enters `stage[1]` as
valid, every other stage takes the one before it, and nothing else of the state changes. -/
def Obligations.SubCompletes : Prop :=
  ∀ (a b : Word) (s : State), ∃ s', exec (.sub a b) s = .next s' ∧
    s'.stage1 = ⟨true, fpadd Config.qnanT a (flipSign b)⟩ ∧ s'.latency = s.latency ∧
    (∀ k, 1 ≤ k → k < s.latency → s'.stage? (k + 1) = s.stage? k) ∧
    s'.pending = s.pending ∧ s'.responses = s.responses ∧ s'.resetSeen = s.resetSeen ∧
    s'.earlyRequest = s.earlyRequest ∧ s'.draws = s.draws

/-- A step runs the decoded request: when the pins carry a request word that decodes to `i`, the step
is `exec i` of the state with the presented response sampled, the edge's drive used up, and a request
before the first reset edge recorded (log 1, 7, 20). -/
def Obligations.StepRunsDecodedRequest : Prop :=
  ∀ (s : State) (op : BitVec 1) (a b : Word) (rest : List Drive) (i : Instr),
    s.pending = ⟨false, true, op, .bits a, .bits b⟩ :: rest →
    decode (packRequest op a b).toNat = .ok i →
    step s = exec i { s with
      pending := rest
      responses := s.responses ++ s.presented.toList
      earlyRequest := s.earlyRequest || !s.resetSeen }

/-- R37: a request is accepted exactly when `rst = 0` and `in_valid = 1`; then its value is that of
the sampled triple; and at an edge with `in_valid = 0` the other pins have no effect on any later
output. -/
def Obligations.AcceptanceNeedsValidAndNoReset : Prop :=
  (∀ s s' : State, step s = .next s' →
    (s'.stage1.valid = true ↔ s.nextDrive.rst = false ∧ s.nextDrive.inValid = true)) ∧
  (∀ (s : State) (op : BitVec 1) (a b : Word) (rest : List Drive),
    ∃ s', step { s with pending := ⟨false, true, op, .bits a, .bits b⟩ :: rest } = .next s' ∧
      s'.stage1 = ⟨true, addsub Config.qnanT op a b⟩) ∧
  (∀ (s : State) (d d' : Drive) (rest : List Drive), d.rst = false → d'.rst = false →
    d.inValid = false → d'.inValid = false →
    ∃ t t', step { s with pending := d :: rest } = .next t ∧
      step { s with pending := d' :: rest } = .next t' ∧
      ∀ (k : Nat) (u u' : State), runEdges k t = .next u → runEdges k t' = .next u' →
        u.visible = u'.visible ∧ u.responses = u'.responses)

/-- R38: at an edge with `rst = 0`, `stage[1].valid <- in_valid`, `stage[1].result <- ADDSUB(in_op,
in_a, in_b)` if `in_valid = 1`, and `stage[k] <- stage[k-1]` for `k = 2 .. L`. -/
def Obligations.EdgeUpdatesPipeline : Prop :=
  ∀ s s' : State, s.nextDrive.rst = false → step s = .next s' →
    s'.stage1.valid = s.nextDrive.inValid ∧
    (∀ a b : Word, s.nextDrive.inValid = true → s.nextDrive.inA.resolve s.atEdge = .ok a →
      s.nextDrive.inB.resolve s.atEdge = .ok b →
      s'.stage1.result = addsub Config.qnanT s.nextDrive.inOp a b) ∧
    s'.latency = s.latency ∧
    (∀ k, 1 ≤ k → k < s.latency → s'.stage? (k + 1) = s.stage? k)

/-- R39: the outputs are `stage[L]`. -/
def Obligations.OutputsShowLastStage : Prop :=
  ∀ s : State, s.stage? s.latency = some ⟨s.outValid, s.outResult⟩

/-- R190, R191: an edge with `rst = 1`, whatever the other pins hold and whatever the state is, clears
every valid bit, accepts nothing, and leaves `out_valid = 0`. -/
def Obligations.ResetEdgeClearsPipeline : Prop :=
  ∀ s : State, s.nextDrive.rst = true →
    ∃ s', step s = .next s' ∧ s'.latency = s.latency ∧
      (∀ k st, s'.stage? k = some st → st.valid = false) ∧
      s'.outValid = false ∧ s'.inFlight = []

/-- R43: after reset no stage is valid and `out_valid = 0`, and one reset edge takes any state of
the instance, the power-on state among them, to a state that shows the same. -/
def Obligations.ResetStateIsEmpty : Prop :=
  State.reset.Empty ∧ State.reset.outValid = false ∧ State.reset.latency = Config.latency ∧
  State.powerOn.latency = Config.latency ∧
  ∀ (s : State) (d : Drive) (rest : List Drive), s.latency = Config.latency → d.rst = true →
    ∃ s', step { s with pending := d :: rest } = .next s' ∧ s'.visible = State.reset.visible

/-- R192: a request accepted at edge t with the next reset at edge r produces no response when
`r ≤ t + L − 1`, and its response has been presented when `r ≥ t + L`. Here `r = t + j + 1`, and the
host idles otherwise. The host has launched the block (R195). -/
def Obligations.ResetDiscardsInFlight : Prop :=
  ∀ (s : State) (op : BitVec 1) (a b : Word) (j m : Nat) (d : Drive),
    s.Launched → s.Empty → d.rst = true →
    ∃ s', runEdges (j + 2 + m) { s with
        pending := ⟨false, true, op, .bits a, .bits b⟩ ::
          (List.replicate j Drive.quiet ++ d :: List.replicate m Drive.quiet) } = .next s' ∧
      s'.responses = s.responses ++
        (if s.latency ≤ j + 1 then [addsub Config.qnanT op a b] else []) ∧
      s'.Empty

/-- R170, R41: no edge faults or stalls. The only edge the model refuses is one where the host is told
to feed back a numbered response that has not been presented (93 U9), so an edge without such an
operand always completes. -/
def Obligations.OnlyMissingFeedbackRefuses : Prop :=
  (∀ s : State, s.Drivable 1 → ∃ s', step s = .next s') ∧
  (∀ (s : State) (r : Refusal), step s = .refused r → ∃ n, r = .responseNotAvailable n ∧
    s.nextDrive.rst = false ∧ s.nextDrive.inValid = true ∧
    (s.nextDrive.inA = .response n ∨ s.nextDrive.inB = .response n) ∧
    (n = 0 ∨ s.atEdge.responses.length < n)) ∧
  (∀ (s : State) (f : Fault), step s ≠ .fault f)

/-- R40: a request accepted at edge t, with no reset at the next L−1 edges, has its response on the
outputs after L−1 further edges, that is in interval t+L−1. -/
def Obligations.ResponseAppearsAfterLatency : Prop :=
  ∀ (s s1 s2 : State) (rw : RequestWord), s.edgeInput = .request rw → step s = .next s1 →
    s1.NoReset (s.latency - 1) → runEdges (s.latency - 1) s1 = .next s2 →
    s2.outValid = true ∧
    s2.outResult = addsub Config.qnanT (RequestWord.op rw) (RequestWord.a rw) (RequestWord.b rw)

/-- R66, R192, R195: once a reset edge has occurred, one edge moves the response stream by exactly
the accepted request's value, and a reset leaves in it only what has been presented. Before the first
reset edge nothing is taken from the outputs, and that edge leaves nothing of them in the stream
(log 7, 20). -/
def Obligations.EdgeExtendsResponseStream : Prop :=
  ∀ s s' : State, step s = .next s' →
    (s.resetSeen = true → s.nextDrive.rst = false →
      s'.stream = s.stream ++ s.acceptedResult.toList) ∧
    (s.resetSeen = true → s.nextDrive.rst = true →
      s'.stream = s.responses ++ (if s.outValid then [s.outResult] else [])) ∧
    (s.resetSeen = false → s'.responses = s.responses ∧
      (s.nextDrive.rst = true → s'.stream = s.responses))

/-- R66, R41: over any number of edges without reset the run completes, and the responses presented
and in flight are those of before followed by `ADDSUB` of each request presented, in order, one per
request. The host has launched the block (R195, log 20); it uses up one pending drive an edge (log 1)
and samples every response (log 7). -/
def Obligations.ResponsesFollowRequestsInOrder : Prop :=
  ∀ (k : Nat) (s : State), s.Launched → s.NoReset k → LiteralDrives (s.pending.take k) →
    ∃ s', runEdges k s = .next s' ∧ s'.stream = s.stream ++ literalResults (s.pending.take k) ∧
      s'.pending = s.pending.drop k

/-- R40, R200: when the host accepts nothing more, L further edges present every response in flight,
in order, and leave the pipeline empty. The host has launched the block (R195). -/
def Obligations.QuietEdgesDrainThePipeline : Prop :=
  ∀ s : State, s.Launched → s.Quiet → ∃ s', runEdges s.latency s = .next s' ∧
    s'.responses = s.stream ∧ s'.Empty

/-- R199: the block keeps no copy of the response on the outputs: two states that differ only in
`stage[L]` and in what the host has sampled have the same stages after the next edge, whatever bits
the host drives. -/
def Obligations.BlockKeepsNoCopyOfResponse : Prop :=
  ∀ (s s' t t' : State) (d : Drive) (a b : Word), s.stages.dropLast = s'.stages.dropLast →
    s.nextDrive = d → s'.nextDrive = d → d.inA = .bits a → d.inB = .bits b →
    step s = .next t → step s' = .next t' → t.visible = t'.visible

/-- R42: the value a request leaves in the pipeline depends on that request alone. -/
def Obligations.ResultDependsOnRequestAlone : Prop :=
  ∀ (i : Instr) (s s' : State), ∃ t t', exec i s = .next t ∧ exec i s' = .next t' ∧
    t.stage1 = t'.stage1 ∧
    t.stage1 = ⟨true, addsub Config.qnanT i.op i.a i.b⟩

/-- R198: a request that needs the result of the one accepted at edge t can be presented at edge t+L
or later and not earlier, here at edge t + j + 1; wired to `out_result` directly, it gets that result
at exactly edge t+L. The host has launched the block (R195). -/
def Obligations.FeedbackDistanceIsLatency : Prop :=
  ∀ (s : State) (op op2 : BitVec 1) (a b c : Word) (j : Nat),
    s.Launched → s.Empty →
    let first : Drive := ⟨false, true, op, .bits a, .bits b⟩
    let script := fun src : Source =>
      first :: (List.replicate j Drive.quiet ++ [⟨false, true, op2, src, .bits c⟩])
    let x := addsub Config.qnanT op a b
    (s.latency ≤ j + 1 → ∃ s',
      runEdges (j + 2) { s with pending := script (.response (s.responses.length + 1)) } = .next s' ∧
      s'.stage1 = ⟨true, addsub Config.qnanT op2 x c⟩) ∧
    (j + 1 < s.latency →
      runEdges (j + 2) { s with pending := script (.response (s.responses.length + 1)) } =
        .refused (.responseNotAvailable (s.responses.length + 1))) ∧
    (j + 1 = s.latency → ∃ s',
      runEdges (j + 2) { s with pending := script .outResult } = .next s' ∧
      s'.stage1 = ⟨true, addsub Config.qnanT op2 x c⟩) ∧
    (∃ s1, runEdges (j + 1) { s with pending := script .outResult } = .next s1 ∧
      (s1.outValid = true ↔ j + 1 = s.latency))

/-- R34, R193, R201: the latency of an instance never changes, over any run, resets included. -/
def Obligations.LatencyIsFixed : Prop :=
  ∀ (k : Nat) (s s' : State), runEdges k s = .next s' → s'.latency = s.latency

/-! ## The invariant -/

/-- The reset state and the power-on state meet the invariant. -/
def Obligations.ResetMeetsTheInvariant : Prop := State.reset.Inv ∧ State.powerOn.Inv

/-- Every step keeps the invariant: the latency stays that of the instance; once a reset edge has
occurred, a stage with `valid = 0` holds a free draw (R38, R43), and the only NaN words in valid stages
and responses are `QNAN` and `SNAN` (R112, R114, R171); before it there is no response (R195,
log 20). -/
def Obligations.StepKeepsTheInvariant : Prop :=
  ∀ s s' : State, s.Inv → step s = .next s' → s'.Inv

/-! ## Request scripts -/

/-- R96, R97: what each line of a script drives on the ports. -/
def Obligations.LinesDriveTheirEdges : Prop :=
  ∀ (t : Nat) (a b : Operand) (n : Nat),
    Line.drives t (.add a b) = [⟨false, true, 0#1, a.source, b.source⟩] ∧
    Line.drives t (.sub a b) = [⟨false, true, 1#1, a.source, b.source⟩] ∧
    ((Line.drives t (.idle n)).length = n ∧
      ∀ d ∈ Line.drives t (.idle n), d.rst = false ∧ d.inValid = false) ∧
    (∃ d, Line.drives t .reset = [d] ∧ d.rst = true)

/-- R198 with R40, R192 and R195: a script that is legal for the instance's latency is never refused,
and it accepts no request before the first reset edge: from power-on or from a launched empty pipeline
every number of its edges can be run. -/
def Obligations.LegalScriptsNeverRefused : Prop :=
  ∀ (s : State) (script : List ScriptLine), s.AtStart →
    scriptLegal s.latency s.resetSeen script = true →
    ∀ k : Nat, ∃ s', runEdges k (s.load script) = .next s' ∧ s'.earlyRequest = false

/-- R200: the run of a legal script, from power-on or from a launched empty pipeline, ends at edge
`t_last + L`: after that edge the block is launched (R195), no stage is valid, and no later edge
presents another response. -/
def Obligations.RunEndsAtLastRequestPlusLatency : Prop :=
  ∀ (s : State) (script : List ScriptLine) (e : Nat), s.AtStart →
    scriptLegal s.latency s.resetSeen script = true → endEdge s.latency script = some e →
    ∃ s', runEdges (e + 1) (s.load script) = .next s' ∧ s'.Launched ∧ s'.Empty ∧
      ∀ m : Nat, ∃ s'', runEdges (e + 1 + m) (s.load script) = .next s'' ∧
        s''.responses = s'.responses

/-! ## The launch and the host's side of an edge -/

/-- The host's side of every edge, the model's own record (log 1, 7, 20): one pending drive is used up,
the response presented before the edge is taken once a reset edge has occurred (R195, R199), and the
record says whether a reset edge has occurred and whether a request was accepted before the first
one. -/
def Obligations.HostSideOfAnEdge : Prop :=
  ∀ s s' : State, step s = .next s' →
    s'.pending = s.pending.tail ∧
    s'.responses = s.responses ++
      (if s.resetSeen = true ∧ s.outValid = true then [s.outResult] else []) ∧
    (s'.resetSeen = true ↔ s.resetSeen = true ∨ s.nextDrive.rst = true) ∧
    (s'.earlyRequest = true ↔ s.earlyRequest = true ∨
      (s.resetSeen = false ∧ s.nextDrive.rst = false ∧ s.nextDrive.inValid = true))

/-- R195, R43, R44: from power-on, whatever the stages hold, any number of idle edges and one reset edge
launch the block: a reset edge has occurred, no request was accepted before it, no stage is valid, and
nothing the outputs showed before that edge was taken for a response (log 20). -/
def Obligations.ResetEdgeLaunchesFromPowerOn : Prop :=
  State.powerOn.BeforeLaunch ∧ State.reset.Launched ∧
  ∀ (s : State) (idles : List Drive) (d : Drive) (rest : List Drive), s.BeforeLaunch →
    (∀ x ∈ idles, x.rst = false ∧ x.inValid = false) → d.rst = true →
    ∃ s', runEdges (idles.length + 1) { s with pending := idles ++ d :: rest } = .next s' ∧
      s'.Launched ∧ s'.Empty ∧ s'.outValid = false ∧ s'.responses = [] ∧ s'.pending = rest

/-- R195: a launched block stays launched over any run, resets included, and one that accepts a request
before its first reset edge is launched at no later edge (log 20). -/
def Obligations.LaunchRecordIsKept : Prop :=
  (∀ (k : Nat) (s s' : State), s.Launched → runEdges k s = .next s' → s'.Launched) ∧
  (∀ (k : Nat) (s s' : State), s.resetSeen = false → s.nextDrive.rst = false →
    s.nextDrive.inValid = true → runEdges (k + 1) s = .next s' → ¬ s'.Launched)
end

