-- ==== Sys2Proof/Laws/Decode.lean ====
section
/-! SUPPORT. The fields of a packed request word (30_encoding.md R81). -/

namespace Sys2Proof

/-- The bits of a packed request word (R81). -/
theorem packRequest_getLsbD (op : BitVec 1) (a b : Word) (i : Nat) :
    (packRequest op a b).getLsbD i =
      if i < 128 then b.getLsbD i
      else if i - 128 < 128 then a.getLsbD (i - 128) else op.getLsbD (i - 128 - 128) := by
  have h : (packRequest op a b).getLsbD i = (op ++ a ++ b).getLsbD i := rfl
  rw [h, BitVec.getLsbD_append, BitVec.getLsbD_append]

@[simp] theorem packRequest_op (op : BitVec 1) (a b : Word) :
    RequestWord.op (packRequest op a b) = op := by
  apply BitVec.eq_of_getLsbD_eq
  intro i hi
  simp only [RequestWord.op, BitVec.getLsbD_extractLsb', packRequest_getLsbD]
  have h0 : i = 0 := by omega
  subst h0
  simp

@[simp] theorem packRequest_a (op : BitVec 1) (a b : Word) :
    RequestWord.a (packRequest op a b) = a := by
  apply BitVec.eq_of_getLsbD_eq
  intro i hi
  simp only [RequestWord.a, BitVec.getLsbD_extractLsb', packRequest_getLsbD]
  simp [hi]

@[simp] theorem packRequest_b (op : BitVec 1) (a b : Word) :
    RequestWord.b (packRequest op a b) = b := by
  apply BitVec.eq_of_getLsbD_eq
  intro i hi
  simp only [RequestWord.b, BitVec.getLsbD_extractLsb', packRequest_getLsbD]
  simp [hi]

/-- A request word is its three fields. -/
theorem packRequest_fields (w : RequestWord) :
    packRequest (RequestWord.op w) (RequestWord.a w) (RequestWord.b w) = w := by
  apply BitVec.eq_of_getLsbD_eq
  intro i hi
  simp only [packRequest_getLsbD, RequestWord.op, RequestWord.a, RequestWord.b,
    BitVec.getLsbD_extractLsb']
  by_cases h1 : i < 128
  · simp [h1]
  · by_cases h2 : i - 128 < 128
    · simp [h1, h2, show 128 + (i - 128) = i by omega]
    · have h3 : i = 256 := by omega
      subst h3
      simp

/-- Numbers below `2^257` are the request words. -/
theorem requestWordFits_iff (w : Nat) : requestWordFits w = true ↔ w < 2 ^ 257 := by
  unfold requestWordFits
  generalize 257 = k
  rw [decide_eq_true_iff, Nat.shiftRight_eq_div_pow, Nat.div_eq_zero_iff_lt (Nat.two_pow_pos k)]

/-- The request word built from a number's fields is the number's word. -/
theorem requestOfNat_eq (w : Nat) : requestOfNat w = BitVec.ofNat 257 w := by
  apply BitVec.eq_of_getLsbD_eq
  intro i hi
  simp only [requestOfNat, packRequest_getLsbD, BitVec.getLsbD_ofNat, Nat.testBit_shiftRight]
  by_cases h1 : i < 128
  · simp [h1, hi]
  · by_cases h2 : i - 128 < 128
    · simp [h1, h2, hi, show 128 + (i - 128) = i by omega]
    · have h3 : i = 256 := by omega
      subst h3
      simp

theorem requestOfNat_toNat (w : RequestWord) : requestOfNat w.toNat = w := by
  rw [requestOfNat_eq, BitVec.ofNat_toNat, BitVec.setWidth_eq]

theorem tableBits_eq (nbits w : Nat) : tableBits nbits w = w % 2 ^ nbits := by
  unfold tableBits
  split
  · rename_i h
    rw [Nat.shiftRight_eq_div_pow, Nat.div_eq_zero_iff_lt (Nat.two_pow_pos nbits)] at h
    exact (Nat.mod_eq_of_lt h).symm
  · rfl

end Sys2Proof
end

