-- ==== Sys2Proof/Laws/Operands.lean ====
section
/-! SUPPORT. The fields of a word and of a packed word, and what the classes say of them (30_encoding.md R84 to R91, 40_fp_add.md R150). -/

namespace Sys2Proof.Machine

theorem expField_lt (x : Word) : expField x < 2 ^ 15 := (x.extractLsb' 112 15).isLt

theorem trailing_lt (x : Word) : trailing x < 2 ^ 112 := (x.extractLsb' 0 112).isLt

/-- The fields as quotients and remainders of the word (R84). -/
theorem expField_eq (x : Word) : expField x = x.toNat / 2 ^ 112 % 2 ^ 15 := by
  rw [expField, BitVec.extractLsb'_toNat, Nat.shiftRight_eq_div_pow]

theorem trailing_eq (x : Word) : trailing x = x.toNat % 2 ^ 112 := by
  rw [trailing, BitVec.extractLsb'_toNat, Nat.shiftRight_zero]

theorem signBit_eq (x : Word) : signBit x = decide (2 ^ 127 ≤ x.toNat) := by
  have h := x.isLt
  rw [signBit, BitVec.getLsbD, Nat.testBit_eq_decide_div_mod_eq]
  exact decide_eq_decide.mpr (by omega)

/-- `x = s · 2^127 + E · 2^112 + T` (R84). -/
theorem toNat_eq_fields (x : Word) :
    x.toNat = (signBit x).toNat * 2 ^ 127 + expField x * 2 ^ 112 + trailing x := by
  have h := x.isLt
  rw [signBit_eq, expField_eq, trailing_eq]
  by_cases h1 : 2 ^ 127 ≤ x.toNat
  · simp only [h1, decide_true, Bool.toNat_true]; omega
  · simp only [h1, decide_false, Bool.toNat_false]; omega

theorem pack_toNat (s : Bool) (E T : Nat) :
    (pack s E T).toNat = s.toNat * 2 ^ 127 + E % 2 ^ 15 * 2 ^ 112 + T % 2 ^ 112 := by
  have h : (pack s E T).toNat =
    (BitVec.ofBool s ++ BitVec.ofNat 15 E ++ BitVec.ofNat 112 T).toNat := rfl
  have h1 := Nat.mod_lt E (Nat.two_pow_pos 15)
  have h2 := Nat.mod_lt T (Nat.two_pow_pos 112)
  rw [h, BitVec.toNat_append, BitVec.toNat_append, BitVec.toNat_ofNat, BitVec.toNat_ofNat,
    ← Nat.shiftLeft_add_eq_or_of_lt h1, ← Nat.shiftLeft_add_eq_or_of_lt h2,
    Nat.shiftLeft_eq, Nat.shiftLeft_eq]
  cases s
  · simp
  · simp
    omega

/-- A packed word has the fields it was packed from (R84). -/
@[simp] theorem signBit_pack (s : Bool) (E T : Nat) : signBit (pack s E T) = s := by
  rw [signBit_eq, pack_toNat]
  cases s
  · simp only [Bool.toNat_false, decide_eq_false_iff_not]; omega
  · simp only [Bool.toNat_true, decide_eq_true_eq]; omega

theorem expField_pack (s : Bool) (E T : Nat) : expField (pack s E T) = E % 2 ^ 15 := by
  rw [expField_eq, pack_toNat]
  cases s
  · simp only [Bool.toNat_false]; omega
  · simp only [Bool.toNat_true]; omega

theorem trailing_pack (s : Bool) (E T : Nat) : trailing (pack s E T) = T % 2 ^ 112 := by
  rw [trailing_eq, pack_toNat]
  cases s
  · simp only [Bool.toNat_false]; omega
  · simp only [Bool.toNat_true]; omega

/-- A word is determined by its fields (R84). -/
theorem word_ext {x y : Word} (hs : signBit x = signBit y) (hE : expField x = expField y)
    (hT : trailing x = trailing y) : x = y := by
  apply BitVec.eq_of_toNat_eq
  rw [toNat_eq_fields x, toNat_eq_fields y, hs, hE, hT]

/-- `flip_sign` inverts the sign and keeps the other fields (40_fp_add.md R150). -/
@[simp] theorem signBit_flipSign (x : Word) : signBit (flipSign x) = !signBit x := by
  have h : (BitVec.ofNat 128 (2 ^ 127)).getLsbD 127 = true := by decide
  rw [signBit, flipSign, BitVec.getLsbD_xor, h, Bool.xor_true, signBit]

@[simp] theorem expField_flipSign (x : Word) : expField (flipSign x) = expField x := by
  have h : (BitVec.ofNat 128 (2 ^ 127)).extractLsb' 112 15 = 0#15 := by decide
  rw [expField, flipSign, BitVec.extractLsb'_xor, h, BitVec.xor_zero, expField]

@[simp] theorem trailing_flipSign (x : Word) : trailing (flipSign x) = trailing x := by
  have h : (BitVec.ofNat 128 (2 ^ 127)).extractLsb' 0 112 = 0#112 := by decide
  rw [trailing, flipSign, BitVec.extractLsb'_xor, h, BitVec.xor_zero, trailing]

@[simp] theorem flipSign_flipSign (x : Word) : flipSign (flipSign x) = x :=
  word_ext (by simp) (by simp) (by simp)

@[simp] theorem unbiasedExp_flipSign (x : Word) : unbiasedExp (flipSign x) = unbiasedExp x := by
  simp [unbiasedExp]

@[simp] theorem significand_flipSign (x : Word) : significand (flipSign x) = significand x := by
  simp [significand]

/-- The classes as conditions on the fields (R88). -/
theorem isNaN_iff (x : Word) : isNaN x = true ↔ expField x = 32767 ∧ trailing x ≠ 0 :=
  decide_eq_true_iff
theorem isInf_iff (x : Word) : isInf x = true ↔ expField x = 32767 ∧ trailing x = 0 :=
  decide_eq_true_iff
theorem isFinite_iff (x : Word) : isFinite x = true ↔ expField x ≠ 32767 := decide_eq_true_iff
theorem isNormal_iff (x : Word) : isNormal x = true ↔ 1 ≤ expField x ∧ expField x ≤ 32766 :=
  decide_eq_true_iff
theorem isE0_iff (x : Word) : isE0 x = true ↔ expField x = 0 := decide_eq_true_iff
theorem isZero_iff (x : Word) : isZero x = true ↔ expField x = 0 ∧ trailing x = 0 :=
  decide_eq_true_iff
theorem isSubnormal_iff (x : Word) : isSubnormal x = true ↔ expField x = 0 ∧ trailing x ≠ 0 :=
  decide_eq_true_iff

/-- The implicit bit stands above the trailing field (R86). -/
theorem significand_eq (x : Word) :
    significand x = if expField x = 0 then trailing x else trailing x + 2 ^ 112 := by
  have h := trailing_lt x
  unfold significand
  split
  · rfl
  · have h1 := Nat.two_pow_add_eq_or_of_lt h 1
    rw [Nat.mul_one] at h1
    rw [Nat.or_comm, ← h1, Nat.add_comm]

/-- `m ∈ [0, 2^113)` (R86). -/
theorem significand_lt (x : Word) : significand x < 2 ^ 113 := by
  have h := trailing_lt x
  rw [significand_eq]; split <;> omega

/-- A normal word has its implicit bit (R86). -/
theorem le_significand {x : Word} (h : expField x ≠ 0) : 2 ^ 112 ≤ significand x := by
  rw [significand_eq, if_neg h]; omega

/-- The exponent of a finite word stays in `−16382 .. 16383` (R85). -/
theorem unbiasedExp_bounds {x : Word} (h : isFinite x = true) :
    -16382 ≤ unbiasedExp x ∧ unbiasedExp x ≤ 16383 := by
  have h1 := expField_lt x
  have h2 := (isFinite_iff x).mp h
  unfold unbiasedExp
  split <;> omega

/-- Two infinities of one sign are one word. -/
theorem isInf_ext {x y : Word} (hx : isInf x = true) (hy : isInf y = true)
    (hs : signBit x = signBit y) : x = y := by
  rw [isInf_iff] at hx hy
  exact word_ext hs (by omega) (by omega)

end Sys2Proof.Machine
end

