-- ==== Sys2Proof/Laws/FpAdd.lean ====
section
/-! SUPPORT. What each step of FPADD can do: bounds, cases and arithmetic forms (40_fp_add.md R111 to R131). -/

namespace Sys2Proof.Machine

/-- After the swap the first operand has the larger exponent field (R111). -/
theorem orderOperands_cases (a b : Word) :
    (expField a < expField b ∧ orderOperands a b = (b, a)) ∨
    (expField b ≤ expField a ∧ orderOperands a b = (a, b)) := by
  unfold orderOperands
  split
  · exact .inl ⟨‹_›, rfl⟩
  · exact .inr ⟨by omega, rfl⟩

/-- What is left when no special case applies: both finite, and both normal or both E0 (R116). -/
theorem specialCase_none {t : Nat} {a b : Word} (h : specialCase t a b = none)
    (ho : expField b ≤ expField a) :
    isFinite a = true ∧ isFinite b = true ∧ (expField a = 0 ↔ expField b = 0) := by
  have ha := expField_lt a
  have hb := expField_lt b
  have step : ∀ {c : Bool} {r : Word} {o : Option Word},
      (if c = true then some r else o) = none → c = false ∧ o = none := by
    intro c r o hc
    cases c
    · exact ⟨rfl, by simpa using hc⟩
    · simp at hc
  obtain ⟨h1, h⟩ := step h
  obtain ⟨h2, h⟩ := step h
  obtain ⟨h3, h⟩ := step h
  obtain ⟨h4, h⟩ := step h
  obtain ⟨h5, -⟩ := step h
  simp only [isInf, isFinite, isNaN, isNormal, isE0, Bool.and_eq_false_iff, Bool.or_eq_false_iff,
    decide_eq_false_iff_not, decide_eq_true_eq] at *
  omega

/-- Finite operands that are both normal or both E0 meet no special case (R116). -/
theorem specialCase_eq_none {t : Nat} {a b : Word} (ha : isFinite a = true)
    (hb : isFinite b = true) (h : expField a = 0 ↔ expField b = 0) :
    specialCase t a b = none := by
  unfold specialCase
  have hn : (isNormal a && isE0 b) = false := by
    simp only [isNormal, isE0, Bool.and_eq_false_iff, decide_eq_false_iff_not]
    omega
  simp only [isInf, isFinite, isNaN, decide_eq_true_eq] at *
  simp [ha, hb, hn]

/-- A result that no special case gives is the general path's (R116, R133). -/
theorem fpaddOrdered_none {t : Nat} {a b : Word} (h : specialCase t a b = none) :
    fpaddOrdered t a b = generalPath a b := by
  rw [fpaddOrdered, h]

theorem fpaddOrdered_some {t : Nat} {a b r : Word} (h : specialCase t a b = some r) :
    fpaddOrdered t a b = r := by
  rw [fpaddOrdered, h]

/-- `m << 3` is `8 · m` (R121). -/
theorem widen_eq (m : Nat) : widen m = 8 * m := by
  rw [widen, Nat.shiftLeft_eq]; omega

/-- A bit that is shifted out is set (R122). -/
theorem stickyOut_eq {B : Nat} (hB : B < 2 ^ 128) (d : Nat) :
    stickyOut B d = if B % 2 ^ d = 0 then 0 else 1 := by
  have h : B &&& (2 ^ min d 128 - 1) = B % 2 ^ d := by
    rw [Nat.and_two_pow_sub_one_eq_mod]
    by_cases hd : d ≤ 128
    · rw [Nat.min_eq_left hd]
    · have h1 : 2 ^ 128 ≤ 2 ^ d := Nat.pow_le_pow_right (by decide) (by omega)
      rw [Nat.min_eq_right (by omega), Nat.mod_eq_of_lt hB, Nat.mod_eq_of_lt (by omega)]
  rw [stickyOut, h]
  by_cases h0 : B % 2 ^ d = 0 <;> simp [h0]

/-- ORing a bit into bit 0. -/
theorem or_one_eq (n : Nat) : n ||| 1 = 2 * (n / 2) + 1 := by
  apply Nat.eq_of_testBit_eq
  intro i
  cases i with
  | zero => simp [Nat.testBit_zero]
  | succ i =>
    rw [Nat.testBit_or, Nat.testBit_succ, Nat.testBit_succ, Nat.testBit_succ]
    simp [show (2 * (n / 2) + 1) / 2 = n / 2 by omega]

/-- The aligned addend: exact when no set bit is shifted out, otherwise odd (R122). -/
theorem alignRight_eq {B : Nat} (hB : B < 2 ^ 128) (d : Nat) :
    alignRight B d =
      if B % 2 ^ d = 0 then B / 2 ^ d else 2 * (B / 2 ^ d / 2) + 1 := by
  rw [alignRight, stickyOut_eq hB, Nat.shiftRight_eq_div_pow]
  split
  · rw [Nat.or_zero]
  · rw [or_one_eq]

/-- The aligned addend does not grow (R122, R125). -/
theorem alignRight_lt {B : Nat} (hB : B < 2 ^ 116) (d : Nat) : alignRight B d < 2 ^ 116 := by
  have h : B / 2 ^ d ≤ B := Nat.div_le_self _ _
  rw [alignRight_eq (by omega)]
  split <;> omega

/-- The four outcomes of the combination (R123, R124). -/
theorem combine_cases (sa sb : Bool) (A B' : Nat) :
    (sa = sb ∧ combine sa sb A B' = some (sa, A + B')) ∨
    (sa ≠ sb ∧ B' < A ∧ combine sa sb A B' = some (sa, A - B')) ∨
    (sa ≠ sb ∧ A < B' ∧ combine sa sb A B' = some (sb, B' - A)) ∨
    (sa ≠ sb ∧ A = B' ∧ combine sa sb A B' = none) := by
  unfold combine
  by_cases h1 : sa = sb
  · exact .inl ⟨h1, by simp [h1]⟩
  · rcases Nat.lt_trichotomy A B' with h2 | h2 | h2
    · exact .inr (.inr (.inl ⟨h1, h2, by simp [h1, h2, Nat.lt_asymm h2]⟩))
    · exact .inr (.inr (.inr ⟨h1, h2, by simp [h1, h2]⟩))
    · exact .inr (.inl ⟨h1, h2, by simp [h1, h2]⟩)

/-- A combined magnitude fits 117 bits (R125). -/
theorem combine_lt {sa sb s : Bool} {A B' M : Nat} (hA : A < 2 ^ 116) (hB : B' < 2 ^ 116)
    (h : combine sa sb A B' = some (s, M)) : M < 2 ^ 117 := by
  rcases combine_cases sa sb A B' with ⟨_, h1⟩ | ⟨_, _, h1⟩ | ⟨_, _, h1⟩ | ⟨_, _, h1⟩ <;>
    rw [h1] at h <;> simp at h <;> omega

/-- Below `2^116`, bit 115 is the top bit. -/
theorem testBit_top {k M : Nat} (h : M < 2 ^ (k + 1)) :
    M.testBit k = decide (2 ^ k ≤ M) := by
  rw [Nat.testBit_eq_decide_div_mod_eq]
  have h1 : M / 2 ^ k < 2 := by
    rw [Nat.div_lt_iff_lt_mul (Nat.two_pow_pos k)]; rw [pow_succ] at h; omega
  refine decide_eq_decide.mpr ⟨fun h2 => ?_, fun h2 => ?_⟩
  · by_contra h3
    rw [Nat.div_eq_of_lt (by omega)] at h2
    omega
  · have h3 : 1 ≤ M / 2 ^ k := (Nat.one_le_div_iff (Nat.two_pow_pos k)).mpr h2
    omega

/-- What the left loop leaves (R127): the magnitude shifted by some places, the exponent lowered by
as many, and the loop's exit condition unless the turns ran out. -/
theorem leftLoop_spec (n M : Nat) (eR : Int) (hM : M < 2 ^ 116) :
    ∃ k, k ≤ n ∧ leftLoop n M eR = (M * 2 ^ k, eR - k) ∧ M * 2 ^ k < 2 ^ 116 ∧
      (0 < k → -16382 ≤ eR - k) ∧
      (2 ^ 115 ≤ M * 2 ^ k ∨ eR - k ≤ -16382 ∨ k = n) := by
  induction n generalizing M eR with
  | zero => exact ⟨0, le_refl _, by simp [leftLoop], by omega, by omega, .inr (.inr rfl)⟩
  | succ n ih =>
    have ht := testBit_top (k := 115) hM
    by_cases hc : M.testBit 115 = false ∧ -16382 < eR
    · have hlt : ¬ 2 ^ 115 ≤ M := by simpa [ht] using hc.1
      obtain ⟨k, h1, h2, h3, h4, h5⟩ := ih (M <<< 1) (eR - 1)
        (by rw [Nat.shiftLeft_eq]; omega)
      have hk : M <<< 1 * 2 ^ k = M * 2 ^ (k + 1) := by rw [Nat.shiftLeft_eq]; ring
      refine ⟨k + 1, by omega, ?_, hk ▸ h3, fun _ => ?_, ?_⟩
      · rw [leftLoop, if_pos hc, h2, hk]
        exact Prod.ext rfl (by push_cast; ring)
      · push_cast
        rcases Nat.eq_zero_or_pos k with h0 | h0
        · subst h0; omega
        · have := h4 h0; omega
      · rw [← hk]
        push_cast
        rcases h5 with h5 | h5 | h5
        · exact .inl h5
        · exact .inr (.inl (by omega))
        · exact .inr (.inr (by omega))
    · refine ⟨0, Nat.zero_le _, by rw [leftLoop, if_neg hc]; simp, by omega, by omega, ?_⟩
      rw [ht] at hc
      simp at hc
      rcases Nat.lt_or_ge M (2 ^ 115) with h | h
      · exact .inr (.inl (by simpa using hc (by omega)))
      · exact .inl (by omega)

/-- Right normalization keeps the dropped bit as sticky (R126). -/
theorem normalize_right {M : Nat} (eR : Int) (h1 : 2 ^ 116 ≤ M) (h2 : M < 2 ^ 117) :
    normalize M eR = (if M % 2 = 0 then M / 2 else 2 * (M / 2 / 2) + 1, eR + 1) := by
  have ht : M.testBit 116 = true := by rw [testBit_top h2]; simpa using h1
  rw [normalize, if_pos ht, Nat.shiftRight_eq_div_pow, Nat.and_one_is_mod, pow_one]
  rcases Nat.mod_two_eq_zero_or_one M with h | h
  · simp [h]
  · simp [h, or_one_eq]

/-- Left normalization (R127): bit 115 is reached, or the exponent is −16382. -/
theorem normalize_left {M : Nat} {eR : Int} (hM : M < 2 ^ 116) (he : -16382 ≤ eR) :
    ∃ k : Nat, normalize M eR = (M * 2 ^ k, eR - k) ∧ M * 2 ^ k < 2 ^ 116 ∧
      -16382 ≤ eR - k ∧ (2 ^ 115 ≤ M * 2 ^ k ∨ eR - k = -16382) := by
  have ht : M.testBit 116 = false := by
    rw [testBit_top (k := 116) (by omega)]; simp; omega
  obtain ⟨k, h1, h2, h3, h4, h5⟩ := leftLoop_spec (eR + 16382).toNat M eR hM
  refine ⟨k, by rw [normalize, ht]; simpa using h2, h3, ?_, ?_⟩
  · omega
  · rcases h5 with h5 | h5 | h5
    · exact .inl h5
    · exact .inr (by omega)
    · exact .inr (by omega)

/-- What normalization leaves of a 117-bit magnitude (R125 to R127). -/
theorem normalize_bounds {M : Nat} {eR : Int} (hM : M < 2 ^ 117) (he : -16382 ≤ eR) :
    (normalize M eR).1 < 2 ^ 116 ∧ -16382 ≤ (normalize M eR).2 ∧ (normalize M eR).2 ≤ eR + 1 ∧
      (2 ^ 115 ≤ (normalize M eR).1 ∨ (normalize M eR).2 = -16382) := by
  rcases Nat.lt_or_ge M (2 ^ 116) with h | h
  · obtain ⟨k, h1, h2, h3, h4⟩ := normalize_left h he
    rw [h1]
    exact ⟨h2, h3, by simp only; omega, h4⟩
  · rw [normalize_right eR h hM]
    refine ⟨?_, by simp only; omega, by simp only; omega, .inl ?_⟩ <;> simp only <;> split <;> omega

/-- Rounding as arithmetic on the low three bits (R128). -/
theorem roundNearest_eq (M : Nat) :
    roundNearest M =
      if 4 < M % 8 ∨ (M % 8 = 4 ∧ M / 8 % 2 = 1) then M / 8 + 1 else M / 8 := by
  have h : roundsUp M = decide (4 < M % 8 ∨ (M % 8 = 4 ∧ M / 8 % 2 = 1)) := by
    simp only [roundsUp, guardBit, keptLsb, roundBit, lowBit, Nat.testBit_eq_decide_div_mod_eq]
    rw [← Bool.decide_or, ← Bool.decide_or, ← Bool.decide_and]
    refine decide_eq_decide.mpr ?_
    norm_num
    omega
  rw [roundNearest, h, Nat.shiftRight_eq_div_pow]
  norm_num

/-- The rounded significand has at most 114 bits (R125, R128). -/
theorem roundNearest_bounds {M : Nat} (h : M < 2 ^ 116) :
    roundNearest M ≤ 2 ^ 113 ∧ (2 ^ 115 ≤ M → 2 ^ 112 ≤ roundNearest M) := by
  rw [roundNearest_eq]
  split <;> omega

/-- What the rounding carry leaves (R129). -/
theorem roundCarry_cases (q : Nat) (eR : Int) :
    (q = 2 ^ 113 ∧ roundCarry q eR = (2 ^ 112, eR + 1)) ∨
    (q ≠ 2 ^ 113 ∧ roundCarry q eR = (q, eR)) := by
  unfold roundCarry
  split
  · rename_i h
    exact .inl ⟨h, by rw [h, Nat.shiftRight_eq_div_pow]; norm_num⟩
  · exact .inr ⟨‹_›, rfl⟩

/-- The significand and exponent that reach the encoder (R125 to R129, R132). -/
theorem rounded_bounds {M : Nat} {eR : Int} (hM : M < 2 ^ 117) (he : -16382 ≤ eR) :
    let r := roundCarry (roundNearest (normalize M eR).1) (normalize M eR).2
    r.1 < 2 ^ 113 ∧ -16382 ≤ r.2 ∧ r.2 ≤ eR + 2 ∧ (r.1 < 2 ^ 112 → r.2 = -16382) := by
  obtain ⟨h1, h2, h3, h4⟩ := normalize_bounds hM he
  obtain ⟨h5, h6⟩ := roundNearest_bounds h1
  rcases roundCarry_cases (roundNearest (normalize M eR).1) (normalize M eR).2 with
    ⟨h7, h8⟩ | ⟨h7, h8⟩
  · rw [h8]
    exact ⟨by simp only; omega, by simp only; omega, by simp only; omega, by simp only; omega⟩
  · rw [h8]
    refine ⟨by simp only; omega, h2, by simp only; omega, fun h9 => ?_⟩
    rcases h4 with h4 | h4
    · have := h6 h4
      simp only at h9
      omega
    · exact h4

/-- The encoder's three outcomes, with the fields of the word it makes (R130, R131, R132). -/
theorem encodeResult_cases {s : Bool} {q : Nat} {eR : Int} (hq : q < 2 ^ 113)
    (he : -16382 ≤ eR) :
    (16383 < eR ∧ encodeResult s q eR = infOf s) ∨
    (eR ≤ 16383 ∧ 2 ^ 112 ≤ q ∧ signBit (encodeResult s q eR) = s ∧
      (expField (encodeResult s q eR) : Int) = eR + 16383 ∧
      trailing (encodeResult s q eR) = q - 2 ^ 112) ∨
    (eR ≤ 16383 ∧ q < 2 ^ 112 ∧ signBit (encodeResult s q eR) = s ∧
      expField (encodeResult s q eR) = 0 ∧ trailing (encodeResult s q eR) = q) := by
  have ht := testBit_top (k := 112) hq
  unfold encodeResult
  by_cases h1 : 16383 < eR
  · exact .inl ⟨h1, by rw [if_pos h1]⟩
  · rw [if_neg h1]
    by_cases h2 : 2 ^ 112 ≤ q
    · have ht' : q.testBit 112 = true := by rw [ht]; simpa using h2
      refine .inr (.inl ⟨by omega, h2, ?_, ?_, ?_⟩) <;> rw [if_pos ht']
      · exact signBit_pack _ _ _
      · rw [expField_pack, Nat.mod_eq_of_lt (by omega)]; omega
      · rw [trailing_pack, Nat.mod_mod]; omega
    · have ht' : ¬ q.testBit 112 = true := by rw [ht]; simpa using h2
      refine .inr (.inr ⟨by omega, by omega, ?_, ?_, ?_⟩) <;> rw [if_neg ht']
      · exact signBit_pack _ _ _
      · rw [expField_pack, Nat.zero_mod]
      · rw [trailing_pack, Nat.mod_mod]; exact Nat.mod_eq_of_lt (by omega)

/-- Normalization, rounding and encoding give an infinity or a finite word, never a NaN (R132). -/
theorem finish_class {s : Bool} {M : Nat} {eR : Int} (hM : M < 2 ^ 117) (he : -16382 ≤ eR) :
    finish s M eR = infOf s ∨ isFinite (finish s M eR) = true := by
  obtain ⟨h1, h2, _, _⟩ := rounded_bounds hM he
  rcases encodeResult_cases (s := s) h1 h2 with ⟨_, h⟩ | ⟨h3, _, _, h, _⟩ | ⟨_, _, _, h, _⟩
  · exact .inl h
  · refine .inr ((isFinite_iff _).mpr fun h4 => ?_)
    rw [finish] at h4
    omega
  · exact .inr ((isFinite_iff _).mpr fun h4 => by rw [finish] at h4; omega)

end Sys2Proof.Machine
end

