-- ==== Sys2Proof/Laws/State.lean ====
section
/-! SUPPORT. One lemma per field per update of State, each true by rfl. -/

namespace Sys2Proof.Machine

@[simp] theorem State.shift_stage1 (s : State) (n : Stage) : (s.shift n).stage1 = n := rfl
@[simp] theorem State.shift_later (s : State) (n : Stage) :
    (s.shift n).later = (s.stage1 :: s.later).dropLast := rfl
@[simp] theorem State.shift_pending (s : State) (n : Stage) : (s.shift n).pending = s.pending := rfl
@[simp] theorem State.shift_responses (s : State) (n : Stage) :
    (s.shift n).responses = s.responses := rfl
@[simp] theorem State.shift_draws (s : State) (n : Stage) : (s.shift n).draws = s.draws := rfl
@[simp] theorem State.shift_resetSeen (s : State) (n : Stage) :
    (s.shift n).resetSeen = s.resetSeen := rfl
@[simp] theorem State.shift_earlyRequest (s : State) (n : Stage) :
    (s.shift n).earlyRequest = s.earlyRequest := rfl

@[simp] theorem State.accept_stage1 (s : State) (r : Word) : (s.accept r).stage1 = ⟨true, r⟩ := rfl
@[simp] theorem State.accept_later (s : State) (r : Word) :
    (s.accept r).later = (s.stage1 :: s.later).dropLast := rfl
@[simp] theorem State.accept_pending (s : State) (r : Word) :
    (s.accept r).pending = s.pending := rfl
@[simp] theorem State.accept_responses (s : State) (r : Word) :
    (s.accept r).responses = s.responses := rfl
@[simp] theorem State.accept_draws (s : State) (r : Word) : (s.accept r).draws = s.draws := rfl
@[simp] theorem State.accept_resetSeen (s : State) (r : Word) :
    (s.accept r).resetSeen = s.resetSeen := rfl
@[simp] theorem State.accept_earlyRequest (s : State) (r : Word) :
    (s.accept r).earlyRequest = s.earlyRequest := rfl

@[simp] theorem State.idleEdge_stage1 (s : State) :
    s.idleEdge.stage1 = ⟨false, Config.draw s.draws⟩ := rfl
@[simp] theorem State.idleEdge_later (s : State) :
    s.idleEdge.later = (s.stage1 :: s.later).dropLast := rfl
@[simp] theorem State.idleEdge_pending (s : State) : s.idleEdge.pending = s.pending := rfl
@[simp] theorem State.idleEdge_responses (s : State) : s.idleEdge.responses = s.responses := rfl
@[simp] theorem State.idleEdge_draws (s : State) : s.idleEdge.draws = s.draws + 1 := rfl
@[simp] theorem State.idleEdge_resetSeen (s : State) :
    s.idleEdge.resetSeen = s.resetSeen := rfl
@[simp] theorem State.idleEdge_earlyRequest (s : State) :
    s.idleEdge.earlyRequest = s.earlyRequest := rfl

@[simp] theorem State.resetEdge_stage1 (s : State) :
    s.resetEdge.stage1 = ⟨false, Config.draw s.draws⟩ := rfl
@[simp] theorem State.resetEdge_later (s : State) :
    s.resetEdge.later = drawnStages s.later.length (s.draws + 1) := rfl
@[simp] theorem State.resetEdge_pending (s : State) : s.resetEdge.pending = s.pending := rfl
@[simp] theorem State.resetEdge_responses (s : State) : s.resetEdge.responses = s.responses := rfl
@[simp] theorem State.resetEdge_draws (s : State) : s.resetEdge.draws = s.draws + s.latency := rfl
@[simp] theorem State.resetEdge_resetSeen (s : State) :
    s.resetEdge.resetSeen = s.resetSeen := rfl
@[simp] theorem State.resetEdge_earlyRequest (s : State) :
    s.resetEdge.earlyRequest = s.earlyRequest := rfl

@[simp] theorem State.sample_stage1 (s : State) : s.sample.stage1 = s.stage1 := rfl
@[simp] theorem State.sample_later (s : State) : s.sample.later = s.later := rfl
@[simp] theorem State.sample_pending (s : State) : s.sample.pending = s.pending := rfl
@[simp] theorem State.sample_responses (s : State) :
    s.sample.responses = s.responses ++ s.presented.toList := rfl
@[simp] theorem State.sample_draws (s : State) : s.sample.draws = s.draws := rfl
@[simp] theorem State.sample_resetSeen (s : State) : s.sample.resetSeen = s.resetSeen := rfl
@[simp] theorem State.sample_earlyRequest (s : State) :
    s.sample.earlyRequest = s.earlyRequest := rfl

@[simp] theorem State.atEdge_stage1 (s : State) : s.atEdge.stage1 = s.stage1 := rfl
@[simp] theorem State.atEdge_later (s : State) : s.atEdge.later = s.later := rfl
@[simp] theorem State.atEdge_pending (s : State) : s.atEdge.pending = s.pending.tail := rfl
@[simp] theorem State.atEdge_responses (s : State) :
    s.atEdge.responses = s.responses ++ s.presented.toList := rfl
@[simp] theorem State.atEdge_draws (s : State) : s.atEdge.draws = s.draws := rfl
@[simp] theorem State.atEdge_resetSeen (s : State) :
    s.atEdge.resetSeen = (s.resetSeen || s.nextDrive.rst) := rfl
@[simp] theorem State.atEdge_earlyRequest (s : State) :
    s.atEdge.earlyRequest = (s.earlyRequest ||
      (!s.resetSeen && !s.nextDrive.rst && s.nextDrive.inValid)) := rfl

@[simp] theorem State.present_stage1 (s : State) (rw : RequestWord) :
    (s.present rw).stage1 = s.stage1 := rfl
@[simp] theorem State.present_later (s : State) (rw : RequestWord) :
    (s.present rw).later = s.later := rfl
@[simp] theorem State.present_pending (s : State) (rw : RequestWord) :
    (s.present rw).pending = Drive.ofRequest rw :: s.pending.tail := rfl
@[simp] theorem State.present_responses (s : State) (rw : RequestWord) :
    (s.present rw).responses = s.responses := rfl
@[simp] theorem State.present_draws (s : State) (rw : RequestWord) :
    (s.present rw).draws = s.draws := rfl
@[simp] theorem State.present_resetSeen (s : State) (rw : RequestWord) :
    (s.present rw).resetSeen = s.resetSeen := rfl
@[simp] theorem State.present_earlyRequest (s : State) (rw : RequestWord) :
    (s.present rw).earlyRequest = s.earlyRequest := rfl

@[simp] theorem State.load_stage1 (s : State) (sc : List ScriptLine) :
    (s.load sc).stage1 = s.stage1 := rfl
@[simp] theorem State.load_later (s : State) (sc : List ScriptLine) :
    (s.load sc).later = s.later := rfl
@[simp] theorem State.load_pending (s : State) (sc : List ScriptLine) :
    (s.load sc).pending = scriptDrives 0 sc := rfl
@[simp] theorem State.load_responses (s : State) (sc : List ScriptLine) :
    (s.load sc).responses = s.responses := rfl
@[simp] theorem State.load_draws (s : State) (sc : List ScriptLine) :
    (s.load sc).draws = s.draws := rfl
@[simp] theorem State.load_resetSeen (s : State) (sc : List ScriptLine) :
    (s.load sc).resetSeen = s.resetSeen := rfl
@[simp] theorem State.load_earlyRequest (s : State) (sc : List ScriptLine) :
    (s.load sc).earlyRequest = s.earlyRequest := rfl

@[simp] theorem Stage.response_valid (r : Word) : Stage.response ⟨true, r⟩ = some r := rfl
@[simp] theorem Stage.response_invalid (r : Word) : Stage.response ⟨false, r⟩ = none := rfl

end Sys2Proof.Machine
end

