-- ==== Sys2Proof/Laws/Ops.lean ====
section
/-! SUPPORT. What each shared operation over the pipeline can do: stages, latency, outputs and the response stream. -/

namespace Sys2Proof.Machine

theorem drawnStages_length (n i : Nat) : (drawnStages n i).length = n := by
  induction n generalizing i with
  | zero => rfl
  | succ n ih => simp [drawnStages, ih]

/-- Every drawn stage is invalid and holds a draw of its own range. -/
theorem drawnStages_mem {n i : Nat} {st : Stage} (h : st ∈ drawnStages n i) :
    st.valid = false ∧ ∃ m, i ≤ m ∧ m < i + n ∧ st.result = Config.draw m := by
  induction n generalizing i with
  | zero => simp [drawnStages] at h
  | succ n ih =>
    rcases List.mem_cons.mp h with rfl | h
    · exact ⟨rfl, i, le_refl _, by omega, rfl⟩
    · obtain ⟨hv, m, h1, h2, h3⟩ := ih h
      exact ⟨hv, m, by omega, by omega, h3⟩

theorem drawnStages_response (n i : Nat) :
    (drawnStages n i).map Stage.response = List.replicate n none := by
  induction n generalizing i with
  | zero => rfl
  | succ n ih => simp [drawnStages, ih, List.replicate_succ]

theorem State.stages_length (s : State) : s.stages.length = s.latency := rfl

theorem State.stages_ne_nil (s : State) : s.stages ≠ [] := List.cons_ne_nil _ _

/-- The last stage is the last of the list of stages. -/
theorem State.lastStage_eq (s : State) : s.lastStage = s.stages.getLast s.stages_ne_nil := by
  cases h : s.later using List.reverseRecOn with
  | nil => simp [State.lastStage, State.stages, h]
  | append_singleton xs x => simp [State.lastStage, State.stages, h]

theorem State.lastStage_mem (s : State) : s.lastStage ∈ s.stages := by
  rw [s.lastStage_eq]; exact List.getLast_mem _

theorem State.stages_eq (s : State) : s.stages = s.stages.dropLast ++ [s.lastStage] := by
  rw [s.lastStage_eq]; exact (List.dropLast_append_getLast s.stages_ne_nil).symm

/-- A shift puts the new stage in front and drops the last one. -/
theorem State.shift_stages (s : State) (n : Stage) :
    (s.shift n).stages = n :: s.stages.dropLast := rfl

theorem State.accept_stages (s : State) (r : Word) :
    (s.accept r).stages = ⟨true, r⟩ :: s.stages.dropLast := rfl

theorem State.idleEdge_stages (s : State) :
    s.idleEdge.stages = ⟨false, Config.draw s.draws⟩ :: s.stages.dropLast := rfl

theorem State.resetEdge_stages (s : State) :
    s.resetEdge.stages = drawnStages s.latency s.draws := rfl

@[simp] theorem State.sample_stages (s : State) : s.sample.stages = s.stages := rfl
@[simp] theorem State.atEdge_stages (s : State) : s.atEdge.stages = s.stages := rfl
@[simp] theorem State.present_stages (s : State) (rw : RequestWord) :
    (s.present rw).stages = s.stages := rfl
@[simp] theorem State.load_stages (s : State) (sc : List ScriptLine) :
    (s.load sc).stages = s.stages := rfl

@[simp] theorem State.shift_latency (s : State) (n : Stage) : (s.shift n).latency = s.latency := by
  simp [State.latency]
@[simp] theorem State.accept_latency (s : State) (r : Word) : (s.accept r).latency = s.latency :=
  s.shift_latency ⟨true, r⟩
@[simp] theorem State.idleEdge_latency (s : State) : s.idleEdge.latency = s.latency :=
  s.shift_latency ⟨false, Config.draw s.draws⟩
@[simp] theorem State.resetEdge_latency (s : State) : s.resetEdge.latency = s.latency := by
  simp [State.latency, drawnStages_length]
@[simp] theorem State.sample_latency (s : State) : s.sample.latency = s.latency := rfl
@[simp] theorem State.atEdge_latency (s : State) : s.atEdge.latency = s.latency := rfl
@[simp] theorem State.present_latency (s : State) (rw : RequestWord) :
    (s.present rw).latency = s.latency := rfl
@[simp] theorem State.load_latency (s : State) (sc : List ScriptLine) :
    (s.load sc).latency = s.latency := rfl

@[simp] theorem State.atEdge_outValid (s : State) : s.atEdge.outValid = s.outValid := rfl
@[simp] theorem State.atEdge_outResult (s : State) : s.atEdge.outResult = s.outResult := rfl
@[simp] theorem State.atEdge_inFlight (s : State) : s.atEdge.inFlight = s.inFlight := rfl

/-- The response on the outputs, if one is presented. -/
theorem State.lastStage_response (s : State) :
    s.lastStage.response = if s.outValid then some s.outResult else none := rfl

/-- The oldest response in flight is the one on the outputs; the others stay. -/
theorem State.inFlight_eq (s : State) :
    s.inFlight = s.lastStage.response.toList ++
      s.stages.dropLast.reverse.filterMap Stage.response := by
  rw [State.inFlight, s.stages_eq]
  cases h : s.lastStage.response <;> simp [h]

/-- A shift adds the new stage's response at the young end and drops the one on the outputs. -/
theorem State.shift_inFlight (s : State) (n : Stage) :
    s.lastStage.response.toList ++ (s.shift n).inFlight = s.inFlight ++ n.response.toList := by
  rw [s.inFlight_eq, State.inFlight, s.shift_stages]
  cases h : n.response <;> simp [h]

/-- After the first reset edge the host takes what the last stage presents (R195). -/
theorem State.presented_launched {s : State} (h : s.resetSeen = true) :
    s.presented = s.lastStage.response := by
  simp [State.presented, h, s.lastStage_response]

/-- Before the first reset edge the host takes nothing (R195). -/
theorem State.presented_beforeReset {s : State} (h : s.resetSeen = false) :
    s.presented = none := by
  simp [State.presented, h]

/-- After an edge without reset the stream is the old one with the new stage's response behind. -/
theorem State.shift_stream {s : State} (h : s.resetSeen = true) (n : Stage) :
    (s.atEdge.shift n).stream = s.stream ++ n.response.toList := by
  rw [State.stream, State.shift_responses, State.atEdge_responses, s.presented_launched h,
    List.append_assoc]
  have h1 := State.shift_inFlight s.atEdge n
  rw [State.atEdge_inFlight] at h1
  change s.lastStage.response.toList ++ _ = _ at h1
  rw [h1, State.stream, List.append_assoc]

/-- Once launched, always launched: the host's record is kept by every edge (R195). -/
theorem State.Launched.atEdge {s : State} (h : s.Launched) : s.atEdge.Launched :=
  ⟨by simp [h.resetSeen], by simp [h.resetSeen, h.noEarlyRequest]⟩

/-- A state with no valid stage has nothing in flight. -/
theorem State.Empty.inFlight {s : State} (h : s.Empty) : s.inFlight = [] := by
  refine List.filterMap_eq_nil_iff.mpr fun st hst => ?_
  simp [Stage.response, h st (List.mem_reverse.mp hst)]

theorem State.Empty.outValid {s : State} (h : s.Empty) : s.outValid = false :=
  h _ s.lastStage_mem

theorem State.resetEdge_empty (s : State) : s.resetEdge.Empty := by
  intro st h
  rw [s.resetEdge_stages] at h
  exact (drawnStages_mem h).1

theorem State.reset_latency : State.reset.latency = Config.latency := by
  simp [State.latency, State.reset, drawnStages_length, Config.latency]

theorem State.reset_stages : State.reset.stages = drawnStages Config.latency 0 := rfl

/-- A source that is no fed-back response number always has a word. -/
theorem Source.resolve_ok {src : Source} (s : State) (h : ∀ n, src ≠ .response n) :
    ∃ w, src.resolve s = .ok w := by
  cases src with
  | bits w => exact ⟨w, rfl⟩
  | outResult => exact ⟨_, rfl⟩
  | response n => exact absurd rfl (h n)

/-- The n-th response, when it has been presented. -/
theorem Source.resolve_response {s : State} {n : Nat} {w : Word} (h : s.responses[n]? = some w) :
    Source.resolve (.response (n + 1)) s = .ok w := by
  simp [Source.resolve, h]

/-- When a source fails it names a response that does not exist. -/
theorem Source.resolve_error {src : Source} {s : State} {n : Nat} (h : src.resolve s = .error n) :
    src = .response n ∧ (n = 0 ∨ s.responses.length < n) := by
  match src with
  | .bits w => simp [Source.resolve] at h
  | .outResult => simp [Source.resolve] at h
  | .response 0 =>
    have h0 : 0 = n := by simpa [Source.resolve] using h
    subst h0
    exact ⟨rfl, .inl rfl⟩
  | .response (k + 1) =>
    cases hk : s.responses[k]? with
    | some w => simp [Source.resolve, hk] at h
    | none =>
      have hn : k + 1 = n := by simpa [Source.resolve, hk] using h
      subst hn
      exact ⟨rfl, .inr (by have := List.getElem?_eq_none_iff.mp hk; omega)⟩

end Sys2Proof.Machine
end

