-- ==== Sys2Proof/Laws/PerInstr.lean ====
section
/-! SUPPORT. What holds of every instruction as syntax, one lemma per constructor. -/

namespace Sys2Proof.Laws.OpSelect

/-- An instruction is well-formed, and its request word carries its operation select and its
operands in the places of 30_encoding.md R81. -/
def Statement (i : Instr) : Prop :=
  i.wellFormed = true ∧ RequestWord.op (encode i) = i.op ∧
    RequestWord.a (encode i) = i.a ∧ RequestWord.b (encode i) = i.b

theorem add (a b : Word) : Statement (.add a b) := by simp [Statement, Instr.wellFormed, encode]

theorem sub (a b : Word) : Statement (.sub a b) := by simp [Statement, Instr.wellFormed, encode]

end Sys2Proof.Laws.OpSelect
end

