-- ==== Sys2Proof/Laws/Step.lean ====
section
/-! SUPPORT. Once, everything a step can do. -/

namespace Sys2Proof.Machine

/-- Executing a decoded request accepts the value ADDSUB gives it (40_fp_add.md R110). -/
theorem exec_decodeRequest (rw : RequestWord) (s : State) :
    exec (decodeRequest rw) s = .next (s.accept
      (addsub Config.qnanT (RequestWord.op rw) (RequestWord.a rw) (RequestWord.b rw))) := by
  unfold decodeRequest addsub
  split <;> rfl

theorem edgeInput_of_rst {s : State} (h : s.nextDrive.rst = true) : s.edgeInput = .reset := by
  simp [State.edgeInput, Drive.seen, h]

theorem edgeInput_of_idle {s : State} (hr : s.nextDrive.rst = false)
    (hv : s.nextDrive.inValid = false) : s.edgeInput = .idle := by
  simp [State.edgeInput, Drive.seen, hr, hv]

theorem edgeInput_of_request {s : State} {a b : Word} (hr : s.nextDrive.rst = false)
    (hv : s.nextDrive.inValid = true) (ha : s.nextDrive.inA.resolve s.atEdge = .ok a)
    (hb : s.nextDrive.inB.resolve s.atEdge = .ok b) :
    s.edgeInput = .request (packRequest s.nextDrive.inOp a b) := by
  simp [State.edgeInput, Drive.seen, hr, hv, ha, hb]

/-- What the block can see at an edge, with what the host drives there. -/
theorem edgeInput_cases (s : State) :
    (s.edgeInput = .reset ∧ s.nextDrive.rst = true) ∨
    (s.edgeInput = .idle ∧ s.nextDrive.rst = false ∧ s.nextDrive.inValid = false) ∨
    (∃ a b, s.edgeInput = .request (packRequest s.nextDrive.inOp a b) ∧
      s.nextDrive.rst = false ∧ s.nextDrive.inValid = true ∧
      s.nextDrive.inA.resolve s.atEdge = .ok a ∧ s.nextDrive.inB.resolve s.atEdge = .ok b) ∨
    (∃ n, s.edgeInput = .unavailable n ∧ s.nextDrive.rst = false ∧ s.nextDrive.inValid = true ∧
      (s.nextDrive.inA = .response n ∨ s.nextDrive.inB = .response n) ∧
      (n = 0 ∨ s.atEdge.responses.length < n)) := by
  cases hr : s.nextDrive.rst with
  | true => exact .inl ⟨edgeInput_of_rst hr, rfl⟩
  | false =>
    cases hv : s.nextDrive.inValid with
    | false => exact .inr (.inl ⟨edgeInput_of_idle hr hv, rfl, rfl⟩)
    | true =>
      cases ha : s.nextDrive.inA.resolve s.atEdge with
      | error n =>
        have h := Source.resolve_error ha
        exact .inr (.inr (.inr ⟨n, by simp [State.edgeInput, Drive.seen, hr, hv, ha], rfl, rfl,
          .inl h.1, h.2⟩))
      | ok a =>
        cases hb : s.nextDrive.inB.resolve s.atEdge with
        | error n =>
          have h := Source.resolve_error hb
          exact .inr (.inr (.inr ⟨n, by simp [State.edgeInput, Drive.seen, hr, hv, ha, hb], rfl,
            rfl, .inr h.1, h.2⟩))
        | ok b => exact .inr (.inr (.inl ⟨a, b, edgeInput_of_request hr hv ha hb, rfl, rfl, rfl, rfl⟩))

/-- Every case of a step: a reset edge, an idle edge, an accepted request, or the refusal of a
fed-back response that does not exist. -/
theorem step_cases (s : State) :
    (s.nextDrive.rst = true ∧ step s = .next s.atEdge.resetEdge) ∨
    (s.nextDrive.rst = false ∧ s.nextDrive.inValid = false ∧ step s = .next s.atEdge.idleEdge) ∨
    (∃ a b, s.nextDrive.rst = false ∧ s.nextDrive.inValid = true ∧
      s.nextDrive.inA.resolve s.atEdge = .ok a ∧ s.nextDrive.inB.resolve s.atEdge = .ok b ∧
      step s = .next (s.atEdge.accept (addsub Config.qnanT s.nextDrive.inOp a b))) ∨
    (∃ n, s.nextDrive.rst = false ∧ s.nextDrive.inValid = true ∧
      (s.nextDrive.inA = .response n ∨ s.nextDrive.inB = .response n) ∧
      (n = 0 ∨ s.atEdge.responses.length < n) ∧
      step s = .refused (.responseNotAvailable n)) := by
  rcases edgeInput_cases s with ⟨he, hr⟩ | ⟨he, hr, hv⟩ | ⟨a, b, he, hr, hv, ha, hb⟩ |
    ⟨n, he, hr, hv, hs, hn⟩
  · exact .inl ⟨hr, by simp [step, State.clockEdge, he]⟩
  · exact .inr (.inl ⟨hr, hv, by simp [step, State.clockEdge, he]⟩)
  · refine .inr (.inr (.inl ⟨a, b, hr, hv, ha, hb, ?_⟩))
    simp only [step, State.clockEdge, he, exec_decodeRequest, packRequest_op, packRequest_a,
      packRequest_b]
  · exact .inr (.inr (.inr ⟨n, hr, hv, hs, hn, by simp [step, State.clockEdge, he]⟩))

/-- A run of one edge more. -/
theorem runEdges_succ (k : Nat) (s : State) :
    runEdges (k + 1) s = match step s with
      | .next s' => runEdges k s'
      | .fault r => .fault r
      | .refused r => .refused r := by
  simp only [runEdges, Host.Core.run]
  generalize hs : step s = o
  have hc : Sys2Proof.core.step s = o := hs
  rw [hc]
  cases o <;> rfl

theorem runEdges_zero (s : State) : runEdges 0 s = .next s := rfl

/-- Two runs one after the other are one run. -/
theorem runEdges_add {j k : Nat} {s t : State} (h : runEdges j s = .next t) :
    runEdges (j + k) s = runEdges k t := by
  induction j generalizing s with
  | zero =>
    have h' : s = t := by simpa [runEdges_zero] using h
    rw [Nat.zero_add, h']
  | succ j ih =>
    rw [Nat.succ_add, runEdges_succ]
    rw [runEdges_succ] at h
    cases hs : step s with
    | next s' => rw [hs] at h; exact ih h
    | fault r => rw [hs] at h; simp at h
    | refused r => rw [hs] at h; simp at h

end Sys2Proof.Machine
end

