-- ==== Sys2Proof/Tests/Slice0.lean ====
section
/-! SUPPORT. Tests of the model against the words and vectors of spec/, and a witness for the hypotheses of every statement that has some. Expected results are those of 95_test_vectors.md. -/

open Sys2Proof Sys2Proof.Machine

namespace Sys2Proof.Tests

/-- A launched pipeline of one idle stage (`L = 1`) with the given drives pending. -/
def oneStage (ds : List Drive) : State := ⟨⟨false, 0#128⟩, [], ds, [], true, false, 0⟩

/-- A launched pipeline of three idle stages (`L = 3`) with the given drives pending. -/
def threeStages (ds : List Drive) : State :=
  ⟨⟨false, 0#128⟩, [⟨false, 0#128⟩, ⟨false, 0#128⟩], ds, [], true, false, 0⟩

/-- A pipeline of one stage before the first reset edge, a word on its outputs. -/
def beforeReset (ds : List Drive) : State := ⟨⟨true, 0#128⟩, [], ds, [], false, false, 0⟩

/-- A request on the pins. -/
def request (op : BitVec 1) (a b : Word) : Drive := ⟨false, true, op, .bits a, .bits b⟩

/-- A reset edge at which a request stands on the pins (V-PIPE-04). -/
def resetWithRequest : Drive := ⟨true, true, 0#1, .bits one, .bits one⟩

/-- `3.0`. -/
def three : Word := 0x4000_8000_0000_0000_0000_0000_0000_0000#128

/-! ## Encoding: words written out from 30_encoding.md R81 and 95_test_vectors.md P1 -/

theorem test_decode_add :
    decode 0x0_3FFF_0000_0000_0000_0000_0000_0000_0000_4000_0000_0000_0000_0000_0000_0000_0000 =
      .ok (.add one two) := by decide

theorem test_decode_sub :
    decode 0x1_3FFF_0000_0000_0000_0000_0000_0000_0000_8000_0000_0000_0000_0000_0000_0000_0000 =
      .ok (.sub one negZero) := by decide

theorem test_encode_sub :
    (encode (.sub one negZero)).toNat =
      0x1_3FFF_0000_0000_0000_0000_0000_0000_0000_8000_0000_0000_0000_0000_0000_0000_0000 := by
  decide

/-! ## Ill-formed terms, one for each check -/

theorem test_illformed_request_word :
    requestWordFits
      0x2_0000_0000_0000_0000_0000_0000_0000_0000_0000_0000_0000_0000_0000_0000_0000_0000 =
        false := by decide

theorem test_illformed_hex_digits :
    scriptLegal 1 true [⟨none, .add (.hex (List.replicate 31 0)) (.named .one)⟩] = false := by decide

theorem test_illformed_response_zero :
    scriptLegal 1 true [⟨none, .add (.response 0) (.named .one)⟩] = false := by decide

theorem test_illformed_response_too_early :
    scriptLegal 2 true [⟨none, .add (.named .one) (.named .one)⟩,
      ⟨none, .add (.response 1) (.named .one)⟩] = false := by decide

theorem test_illformed_label :
    scriptLegal 1 true [⟨some 1, .reset⟩] = false := by decide

/-- A request before the first reset edge (70_reset_and_hazards.md R195). -/
theorem test_illformed_request_before_reset :
    scriptLegal 1 false [⟨none, .add (.named .one) (.named .one)⟩, ⟨none, .reset⟩] = false := by
  decide

/-! ## ADD and SUB: rows of 95_test_vectors.md sections 2.1 and 2.2 -/

/-- V-ADD-19, 23, 25, 28, 32, 37, 40, 47, 54, 60: left limit, tie, sticky, far subtraction, overflow
by rounding, rounding carry, invalid, NaN, special case 4, long normalization. -/
theorem test_add_vectors :
    (fpadd 5 0x00010000000000000000000000000001#128 0x80010000000000000000000000000000#128,
     fpadd 5 0x3FFF0000000000000000000000000001#128 0x3F8E0000000000000000000000000000#128,
     fpadd 5 one 0x3F8E0000000000000000000002000000#128,
     fpadd 5 one 0xBF370000000000000000000000000000#128,
     fpadd 5 maxFinite 0x7F8D0000000000000000000000000000#128,
     fpadd 5 0x3FFFFFFFFFFFFFFFFFFFFFFFFFFFFFFF#128 0x3F8E0000000000000000000000000000#128,
     fpadd 5 posInf negInf,
     fpadd 5 one 0xFFFF0000000000000000000000000005#128,
     fpadd 5 eps minNormal,
     fpadd 5 0x3FFF0000000000000000000000000001#128 0xBFFF0000000000000000000000000000#128) =
    (eps, 0x3FFF0000000000000000000000000002#128, 0x3FFF0000000000000000000000000001#128, one,
     posInf, two, snan, qnan 5, minNormal, 0x3F8F0000000000000000000000000000#128) := by decide

/-- V-PIPE-09, edge 1: ADD ONE, TWO enters the first of three stages. -/
theorem test_add_step :
    (match step (threeStages [request 0#1 one two]) with
      | .next s => (s.stage1, s.outValid)
      | _ => (⟨false, 0#128⟩, true)) = (⟨true, three⟩, false) := by decide

/-- V-SUB-02, 05, 07, 08, 09, 13, 18, 19. -/
theorem test_sub_vectors :
    (addsub 5 1#1 two three, addsub 5 1#1 negZero posZero, addsub 5 1#1 negZero negZero,
     addsub 5 1#1 one 0x3F8E0000000000000000000000000000#128,
     addsub 5 1#1 one 0x3F8D0000000000000000000000000000#128,
     addsub 5 1#1 one posInf, addsub 5 1#1 (flipSign maxFinite) maxFinite, addsub 5 1#1 eps one) =
    (0xBFFF0000000000000000000000000000#128, negZero, posZero,
     0x3FFEFFFFFFFFFFFFFFFFFFFFFFFFFFFF#128, one, negInf, negInf,
     0xBFFF0000000000000000000000000000#128) := by decide

/-- V-PIPE-09, edge 2: SUB ONE, ONE enters behind the first result. -/
theorem test_sub_step :
    (match step { threeStages [request 1#1 one one] with stage1 := ⟨true, three⟩ } with
      | .next s => (s.stage1, s.later)
      | _ => (⟨false, 0#128⟩, [])) = (⟨true, posZero⟩, [⟨true, three⟩, ⟨false, 0#128⟩]) := by
  decide

/-- V-PIPE-05 with `L = 1`: the response is sampled at the reset edge, and nothing is valid after. -/
theorem test_reset_step :
    (match step { oneStage [resetWithRequest] with stage1 := ⟨true, two⟩ } with
      | .next s => (s.outValid, s.responses)
      | _ => (true, [])) = (false, [two]) := by decide

/-- What the outputs show before the first reset edge is no response (70_reset_and_hazards.md R195). -/
theorem test_first_reset_step :
    (match step (beforeReset [resetWithRequest]) with
      | .next s => (s.outValid, s.responses, s.resetSeen, s.earlyRequest)
      | _ => (true, [], false, true)) = (false, [], true, false) := by decide

/-- A request accepted before the first reset edge is recorded (70_reset_and_hazards.md R195). -/
theorem test_early_request_step :
    (match step (beforeReset [request 0#1 one two]) with
      | .next s => (s.responses, s.resetSeen, s.earlyRequest)
      | _ => ([], true, false)) = ([], false, true) := by decide

/-- A table row presented after reset is the request the next step runs. -/
theorem test_fetch_word :
    (match step (State.reset.withFetchWord 264
        0x1_4000_0000_0000_0000_0000_0000_0000_0000_3FFF_0000_0000_0000_0000_0000_0000_0000) with
      | .next s => s.stage1
      | _ => ⟨false, 0#128⟩) = ⟨true, one⟩ := by decide

/-! ## The written form of script lines (30_encoding.md R96; 95_test_vectors.md P2, P4) -/

theorem test_parse_request :
    parseLine ['@', '5', ':', ' ', 'S', 'U', 'B', ' ', '−', '0', ',', ' ', 'R', '1', '2', ' ', ';',
      ' ', 'x'] = some ⟨some 5, .sub (.named .negZero) (.response 12)⟩ := by decide

theorem test_parse_idle :
    parseScript [['I', 'D', 'L', 'E'], ['I', 'D', 'L', 'E', ' ', '3'], ['R', 'E', 'S', 'E', 'T']] =
      some [⟨none, .idle 1⟩, ⟨none, .idle 3⟩, ⟨none, .reset⟩] := by decide

/-! ## Witnesses: a concrete instance of the hypotheses of each statement that has some -/

theorem twoPow_lt (n : Nat) : 2 ^ n < 2 ^ (n + 1) := by
  have h := Nat.two_pow_pos n
  rw [Nat.pow_succ]
  omega

theorem witness_EveryRequestWordIsDefined : (2 ^ 256 : Nat) < 2 ^ 257 :=
  twoPow_lt 256

theorem witness_OperationSelectIsBit256 : (2 ^ 256 : Nat) < 2 ^ 257 :=
  twoPow_lt 256

theorem witness_OverwideNumbersAreRejected : (2 ^ 257 : Nat) ≤ 2 ^ 257 := le_refl _

theorem witness_PresentedTableWordRuns : decodeTableWord 264 1 = some (.add 0#128 1#128) := by decide

theorem witness_WordIsItsFields : (32767 : Nat) ≤ 32767 ∧ (2 ^ 112 - 1 : Nat) ≤ 2 ^ 112 - 1 := by
  decide

theorem witness_ExponentAndSignificand :
    (1 ≤ expField maxFinite ∧ expField maxFinite ≤ 32766 ∧ isFinite maxFinite = true) ∧
    expField maxSub = 0 ∧ expField posInf ≠ 0 := by decide

theorem witness_NaNWordsHaveTheirFields : qnanTOk 1 = true ∧ qnanTOk (2 ^ 112 - 1) = true := by decide

theorem witness_FlipSignInvertsOnlyBit127 : 127 < 128 ∧ 126 < 128 := by decide

theorem witness_LimbsHoldTheWord : 0 < 64 ∧ 63 < 64 := by decide

theorem witness_InfinityAndNaNResults :
    (isInf posInf = true ∧ isInf posInf = true ∧ signBit posInf = signBit posInf) ∧
    (isInf posInf = true ∧ isInf negInf = true ∧ signBit posInf ≠ signBit negInf) ∧
    (isInf negInf = true ∧ isFinite maxFinite = true) ∧
    (isFinite posZero = true ∧ isInf negInf = true) ∧
    (isNaN snan = true ∨ isNaN posInf = true) ∧ (isNaN negInf = true ∨ isNaN (qnan 1) = true) := by
  decide

theorem witness_NormalWithE0GivesTheNormal :
    isNormal minNormal = true ∧ isE0 maxSub = true ∧ isNormal maxFinite = true ∧ isE0 negZero = true := by
  decide

theorem witness_GeneralPathOperands : expField one ≤ expField two := by decide

theorem witness_NaNResultsNameTheirCondition : qnanTOk 1 = true ∧ nanPropagation snan one = true ∧
    invalidOperation posInf negInf = true := by decide

theorem witness_AlignmentKeepsSticky :
    (8 < 2 ^ 116 ∧ 8 % 2 ^ 3 = 0) ∧ 8 % 2 ^ 4 ≠ 0 ∧ 128 ≤ 128 := by decide

theorem witness_CancellationGivesPlusZero :
    isFinite maxFinite = true ∧
    (expField (flipSign one) ≤ expField one ∧ specialCase 1 one (flipSign one) = none ∧
      widen (significand one) =
        alignRight (widen (significand (flipSign one))) (expDiff one (flipSign one)) ∧
      signBit one ≠ signBit (flipSign one)) := by decide

theorem witness_LeftLoopIsOneShift : (2 ^ 115 : Nat) < 2 ^ 116 ∧ (-16382 : Int) ≤ -16382 := by decide

theorem witness_RoundingIsNearestEven : (12 : Nat) < 2 ^ 116 ∧ |8 * (roundNearest 12 : Int) - 12| = 4 := by
  decide

theorem witness_DatapathStaysIn117Bits :
    expField one ≤ expField two ∧ specialCase 1 two one = none ∧
      combine (signBit two) (signBit one) (widen (significand two))
        (alignRight (widen (significand one)) (expDiff two one)) = some (false, 3 * 2 ^ 114) := by
  decide

theorem witness_EncodedResultHasItsValue :
    (2 ^ 116 : Nat) < 2 ^ 117 ∧ (-16382 : Int) ≤ 0 ∧ (0 : Int) ≤ 16383 ∧
      (roundCarry (roundNearest (normalize (2 ^ 116) 0).1) (normalize (2 ^ 116) 0).2).2 ≤ 16383 := by
  decide

theorem witness_ZeroTable : isNormal one = true ∧ isSubnormal eps = true ∧ isFinite negZero = true := by
  decide

/-- The addend of V-ADD-32: with `MAX_FINITE` it makes a sum at the overflow bound. -/
def halfUlp : Word := 0x7F8D0000000000000000000000000000#128

/-- The value of a word from its fields (30_encoding.md R87). -/
theorem value_fields {x : Word} {s : Bool} {m : Nat} {e : Int} (hs : signBit x = s)
    (hm : significand x = m) (he : unbiasedExp x = e) :
    value x = (if s then -1 else 1) * (m : ℚ) * 2 ^ (e - 112) := by
  subst hs hm he
  rfl

theorem value_zero {x : Word} (h : significand x = 0) : value x = 0 := by simp [value, h]

theorem value_flipSign {x : Word} (hs : signBit (flipSign x) = !signBit x)
    (hm : significand (flipSign x) = significand x)
    (he : unbiasedExp (flipSign x) = unbiasedExp x) : value (flipSign x) = -value x := by
  rw [value_fields hs hm he, value]
  cases signBit x <;> simp

/-- V-ADD-32 adds up to the overflow bound exactly (95_test_vectors.md, 40_fp_add.md R130). -/
theorem overflow_boundary : value maxFinite + value halfUlp = overflowBound := by
  have h1 : value maxFinite = (1 : ℚ) * ((2 ^ 113 - 1 : Nat) : ℚ) * 2 ^ ((16383 : Int) - 112) :=
    value_fields (s := false) (by decide) (by decide) (by decide)
  have h2 : value halfUlp = (1 : ℚ) * ((2 ^ 112 : Nat) : ℚ) * 2 ^ ((16270 : Int) - 112) :=
    value_fields (s := false) (by decide) (by decide) (by decide)
  have e1 : (2 : ℚ) ^ ((16383 : Int) - 112) = 2 * 2 ^ (16270 : Int) := by
    rw [← zpow_one_add₀ (by norm_num)]
    norm_num
  have e2 : ((2 ^ 112 : Nat) : ℚ) * 2 ^ ((16270 : Int) - 112) = 2 ^ (16270 : Int) := by
    rw [Nat.cast_pow, Nat.cast_ofNat, ← zpow_natCast, ← zpow_add₀ (by norm_num)]
    norm_num
  rw [h1, h2, e1, one_mul, one_mul, e2, overflowBound]
  generalize (2 : ℚ) ^ (16270 : Int) = u
  norm_num
  ring

theorem overflow_boundary_negative :
    value (flipSign maxFinite) + value (flipSign halfUlp) = -overflowBound := by
  rw [value_flipSign (by decide) (by decide) (by decide),
    value_flipSign (by decide) (by decide) (by decide), ← overflow_boundary]
  ring

theorem overflowBound_pos : 0 < overflowBound := by
  rw [overflowBound]
  exact mul_pos (by norm_num) (zpow_pos (by norm_num) _)

/-- The premises of correct rounding: the operand classes at the least subnormal, and each clause: a
sum in range, the overflow bound on either side (V-ADD-32), and zero sums of zeros of different and
of equal signs. -/
theorem witness_AdditionRoundsCorrectly :
    (isFinite eps = true ∧ isFinite negZero = true ∧
      ¬ (isNormal eps = true ∧ isSubnormal negZero = true) ∧
      ¬ (isSubnormal eps = true ∧ isNormal negZero = true)) ∧
    (isFinite posZero = true ∧ |value posZero + value negZero| < overflowBound ∧
      value posZero + value negZero = 0 ∧ signBit posZero ≠ signBit negZero) ∧
    (isNormal maxFinite = true ∧ isNormal halfUlp = true ∧
      overflowBound ≤ value maxFinite + value halfUlp) ∧
    (isNormal (flipSign maxFinite) = true ∧ isNormal (flipSign halfUlp) = true ∧
      value (flipSign maxFinite) + value (flipSign halfUlp) ≤ -overflowBound) ∧
    (value negZero + value negZero = 0 ∧ signBit negZero = signBit negZero) := by
  have hp : value posZero = 0 := value_zero (by decide)
  have hn : value negZero = 0 := value_zero (by decide)
  rw [hp, hn]
  refine ⟨by decide, ⟨by decide, by simp [overflowBound_pos], by simp, by decide⟩,
    ⟨by decide, by decide, overflow_boundary.ge⟩,
    ⟨by decide, by decide, overflow_boundary_negative.le⟩, by simp, rfl⟩

/-- The same for differences. -/
theorem witness_SubtractionRoundsCorrectly :
    (isFinite one = true ∧ isFinite two = true ∧
      ¬ (isNormal one = true ∧ isSubnormal two = true) ∧
      ¬ (isSubnormal one = true ∧ isNormal two = true)) ∧
    (isFinite posZero = true ∧ |value posZero - value posZero| < overflowBound ∧
      value posZero - value posZero = 0 ∧ signBit posZero = signBit posZero) ∧
    (isNormal maxFinite = true ∧ isNormal (flipSign halfUlp) = true ∧
      overflowBound ≤ value maxFinite - value (flipSign halfUlp)) ∧
    (isNormal (flipSign maxFinite) = true ∧ isNormal halfUlp = true ∧
      value (flipSign maxFinite) - value halfUlp ≤ -overflowBound) ∧
    (value negZero - value posZero = 0 ∧ signBit negZero ≠ signBit posZero) := by
  have hp : value posZero = 0 := value_zero (by decide)
  have hn : value negZero = 0 := value_zero (by decide)
  have hh : value (flipSign halfUlp) = -value halfUlp :=
    value_flipSign (by decide) (by decide) (by decide)
  have hm : value (flipSign maxFinite) = -value maxFinite :=
    value_flipSign (by decide) (by decide) (by decide)
  rw [hp, hn, hh, hm, ← overflow_boundary]
  refine ⟨by decide, ⟨by decide, ?_, by simp, rfl⟩, ⟨by decide, by decide, by linarith⟩,
    ⟨by decide, by decide, by linarith⟩, by simp, by decide⟩
  rw [overflow_boundary]
  simp [overflowBound_pos]

theorem witness_NormalSubnormalDeparture :
    isNormal (pack false 115 0) = true ∧ isSubnormal maxSub = true ∧
      115 ≤ expField (pack false 115 0) := by decide

theorem witness_OverflowGivesSignedInfinity :
    isFinite maxFinite = true ∧ isInf (fpadd 1 maxFinite maxFinite) = true := by decide

theorem witness_TinySumsAreExact :
    isFinite posZero = true ∧ ¬ (isNormal posZero = true ∧ isSubnormal posZero = true) ∧
      |value posZero + value posZero| < 2 ^ (-16382 : Int) := by
  have h : value posZero = 0 := value_zero (by decide)
  refine ⟨by decide, by decide, ?_⟩
  rw [h]
  simp only [add_zero, abs_zero]
  exact zpow_pos (by norm_num) _

theorem witness_DoublingIsExact : expField maxSub < 32766 ∧ expField maxFinite = 32766 := by decide

theorem witness_SubtractionIsAntisymmetric :
    qnanTOk 1 = true ∧ isZero (addsub 1 1#1 two one) = false ∧ isNaN (addsub 1 1#1 two one) = false := by decide

theorem witness_AddCompletes : 1 ≤ 1 ∧ 1 < (threeStages []).latency ∧ 2 < (threeStages []).latency := by
  decide

theorem witness_SubCompletes : 1 ≤ 1 ∧ 1 < (threeStages []).latency := by decide

theorem witness_StepRunsDecodedRequest :
    (oneStage [request 1#1 one two]).pending = [⟨false, true, 1#1, .bits one, .bits two⟩] ∧
      decode (packRequest 1#1 one two).toNat = .ok (.sub one two) := by decide

theorem witness_AcceptanceNeedsValidAndNoReset :
    (∃ s', step (oneStage [request 0#1 one two]) = .next s') ∧
    Drive.quiet.rst = false ∧ Drive.quiet.inValid = false ∧
    (∃ t u, step (oneStage [Drive.quiet]) = .next t ∧ runEdges 2 t = .next u) :=
  ⟨⟨_, rfl⟩, rfl, rfl, _, _, rfl, rfl⟩

theorem witness_EdgeUpdatesPipeline :
    (threeStages [request 0#1 one two]).nextDrive.rst = false ∧
    (threeStages [request 0#1 one two]).nextDrive.inValid = true ∧
    (Source.bits one).resolve (threeStages []) = .ok one ∧
    (∃ s', step (threeStages [request 0#1 one two]) = .next s') :=
  ⟨rfl, rfl, rfl, _, rfl⟩

theorem witness_ResetEdgeClearsPipeline : (oneStage [resetWithRequest]).nextDrive.rst = true := rfl

theorem witness_ResetStateIsEmpty :
    State.reset.latency = Config.latency ∧ resetWithRequest.rst = true :=
  ⟨State.reset_latency, rfl⟩

theorem threeStages_launched (ds : List Drive) : (threeStages ds).Launched := ⟨rfl, rfl⟩

theorem threeStages_empty (ds : List Drive) : (threeStages ds).Empty := by
  intro st h
  simp [State.stages, threeStages] at h
  simp [h]

theorem witness_ResetDiscardsInFlight :
    (threeStages []).Launched ∧ (threeStages []).Empty ∧ resetWithRequest.rst = true :=
  ⟨threeStages_launched _, threeStages_empty _, rfl⟩

theorem witness_OnlyMissingFeedbackRefuses :
    (oneStage []).Drivable 1 ∧
    step (oneStage [⟨false, true, 0#1, .response 1, .bits one⟩]) =
      .refused (.responseNotAvailable 1) :=
  ⟨fun d h => by simp [oneStage] at h, rfl⟩

theorem witness_ResponseAppearsAfterLatency :
    ∃ s1 s2, (threeStages [request 0#1 one two]).edgeInput =
        .request (packRequest 0#1 one two) ∧
      step (threeStages [request 0#1 one two]) = .next s1 ∧ s1.NoReset 2 ∧
      runEdges 2 s1 = .next s2 :=
  ⟨_, _, rfl, rfl, fun d h => by simp [threeStages] at h, rfl⟩

theorem witness_EdgeExtendsResponseStream :
    (∃ s', step (oneStage [request 0#1 one two]) = .next s' ∧
      (oneStage [request 0#1 one two]).resetSeen = true ∧
      (oneStage [request 0#1 one two]).nextDrive.rst = false) ∧
    (∃ s', step (oneStage [resetWithRequest]) = .next s' ∧
      (oneStage [resetWithRequest]).resetSeen = true ∧
      (oneStage [resetWithRequest]).nextDrive.rst = true) ∧
    (∃ s', step (beforeReset [resetWithRequest]) = .next s' ∧
      (beforeReset [resetWithRequest]).resetSeen = false ∧
      (beforeReset [resetWithRequest]).nextDrive.rst = true) :=
  ⟨⟨_, rfl, rfl, rfl⟩, ⟨_, rfl, rfl, rfl⟩, _, rfl, rfl, rfl⟩

theorem witness_ResponsesFollowRequestsInOrder :
    (oneStage [request 0#1 one two, request 1#1 one two]).Launched ∧
    (oneStage [request 0#1 one two, request 1#1 one two]).NoReset 2 ∧
    LiteralDrives ((oneStage [request 0#1 one two, request 1#1 one two]).pending.take 2) := by
  refine ⟨⟨rfl, rfl⟩, ?_, ?_⟩
  · intro d h
    simp [oneStage, request] at h
    rcases h with rfl | rfl <;> rfl
  · intro d h
    simp [oneStage, request] at h
    rcases h with rfl | rfl <;> exact ⟨_, _, rfl, rfl⟩

theorem witness_QuietEdgesDrainThePipeline :
    ({ threeStages [Drive.quiet] with stage1 := ⟨true, two⟩ } : State).Launched ∧
    ({ threeStages [Drive.quiet] with stage1 := ⟨true, two⟩ } : State).Quiet := by
  refine ⟨⟨rfl, rfl⟩, fun d h => ?_⟩
  simp [threeStages] at h
  subst h
  exact ⟨rfl, rfl⟩

theorem witness_BlockKeepsNoCopyOfResponse :
    ∃ s s' t t' : State, s.stages.dropLast = s'.stages.dropLast ∧ s.stages ≠ s'.stages ∧
      s.nextDrive = request 0#1 one two ∧ s'.nextDrive = request 0#1 one two ∧
      step s = .next t ∧ step s' = .next t' :=
  ⟨oneStage [request 0#1 one two],
    { oneStage [request 0#1 one two] with stage1 := ⟨true, two⟩ },
    _, _, rfl, by decide, rfl, rfl, rfl, rfl⟩

theorem witness_FeedbackDistanceIsLatency :
    (threeStages []).Launched ∧ (threeStages []).Empty ∧ (threeStages []).latency ≤ 2 + 1 ∧
      1 + 1 < (threeStages []).latency ∧ 2 + 1 = (threeStages []).latency :=
  ⟨threeStages_launched _, threeStages_empty _, by decide, by decide, by decide⟩

theorem witness_LatencyIsFixed :
    ∃ s', runEdges 2 (threeStages [request 0#1 one two, resetWithRequest]) = .next s' :=
  ⟨_, rfl⟩

/-- A state that meets the invariant and steps: the reset state with a request presented. -/
theorem witness_StepKeepsTheInvariant :
    ∃ s s' : State, s.Inv ∧ step s = .next s' := by
  refine ⟨State.reset.present (packRequest 0#1 one two), _, ⟨?_, ?_, ?_, ?_, ?_⟩, rfl⟩
  · rw [State.present_latency]; exact State.reset_latency
  · intro _ st h _
    rw [State.present_stages, State.reset_stages] at h
    obtain ⟨_, m, _, h2, h3⟩ := drawnStages_mem h
    exact ⟨m, by simpa [State.reset] using h2, h3⟩
  · intro _ st h hv
    rw [State.present_stages, State.reset_stages] at h
    rw [(drawnStages_mem h).1] at hv
    cases hv
  · intro w h
    cases h
  · intro h
    cases h

/-- The script of program P2 with two of its requests, for `L = 3`. -/
def chain : List ScriptLine :=
  [⟨some 0, .reset⟩, ⟨some 1, .add (.named .one) (.named .one)⟩, ⟨none, .idle 2⟩,
    ⟨some 4, .add (.response 1) (.response 1)⟩]

/-- Both kinds of start: a launched empty pipeline, and one before its first reset edge. -/
theorem witness_LegalScriptsNeverRefused :
    ((threeStages []).AtStart ∧
      scriptLegal (threeStages []).latency (threeStages []).resetSeen chain = true) ∧
    ((beforeReset []).AtStart ∧
      scriptLegal (beforeReset []).latency (beforeReset []).resetSeen chain = true) :=
  ⟨⟨.inl ⟨threeStages_launched _, threeStages_empty _, rfl⟩, by decide⟩,
    .inr ⟨rfl, rfl, rfl⟩, by decide⟩

theorem witness_RunEndsAtLastRequestPlusLatency :
    ((threeStages []).AtStart ∧
      scriptLegal (threeStages []).latency (threeStages []).resetSeen chain = true ∧
      endEdge (threeStages []).latency chain = some 7) ∧
    ((beforeReset []).AtStart ∧
      scriptLegal (beforeReset []).latency (beforeReset []).resetSeen chain = true ∧
      endEdge (beforeReset []).latency chain = some 5) :=
  ⟨⟨.inl ⟨threeStages_launched _, threeStages_empty _, rfl⟩, by decide, by decide⟩,
    .inr ⟨rfl, rfl, rfl⟩, by decide, by decide⟩

theorem witness_HostSideOfAnEdge :
    (∃ s', step (oneStage [request 0#1 one two]) = .next s') ∧
    (∃ s', step (beforeReset [request 0#1 one two]) = .next s') ∧
    (∃ s', step (beforeReset [resetWithRequest]) = .next s') :=
  ⟨⟨_, rfl⟩, ⟨_, rfl⟩, _, rfl⟩

theorem witness_ResetEdgeLaunchesFromPowerOn :
    (beforeReset []).BeforeLaunch ∧ (∀ x ∈ [Drive.quiet], x.rst = false ∧ x.inValid = false) ∧
      resetWithRequest.rst = true :=
  ⟨⟨rfl, rfl, rfl⟩, by simp [Drive.quiet], rfl⟩

theorem witness_LaunchRecordIsKept :
    ((threeStages [resetWithRequest]).Launched ∧
      ∃ s', runEdges 2 (threeStages [resetWithRequest]) = .next s') ∧
    ((beforeReset [request 0#1 one two, resetWithRequest]).resetSeen = false ∧
      (beforeReset [request 0#1 one two, resetWithRequest]).nextDrive.rst = false ∧
      (beforeReset [request 0#1 one two, resetWithRequest]).nextDrive.inValid = true ∧
      ∃ s', runEdges (1 + 1) (beforeReset [request 0#1 one two, resetWithRequest]) = .next s') :=
  ⟨⟨threeStages_launched _, _, rfl⟩, rfl, rfl, rfl, _, rfl⟩

end Sys2Proof.Tests
end

section
/-! PROOFS. The fields of the NaN words (30_encoding.md R90, R91). -/

namespace Sys2Proof.Machine

/-- `QNAN` has the fields it is packed from (R90). -/
theorem qnan_fields {t : Nat} (h : qnanTOk t = true) :
    signBit (qnan t) = false ∧ expField (qnan t) = 32767 ∧ trailing (qnan t) = t := by
  have ht : 1 ≤ t ∧ t ≤ 2 ^ 112 - 1 := of_decide_eq_true h
  refine ⟨signBit_pack _ _ _, ?_, ?_⟩
  · rw [qnan, expField_pack, Nat.mod_eq_of_lt (by decide)]
  · rw [qnan, trailing_pack, Nat.mod_eq_of_lt (by omega)]

/-- `QNAN` is a NaN for every parameter value the spec admits (R8, R90). -/
theorem isNaN_qnan {t : Nat} (h : qnanTOk t = true) : isNaN (qnan t) = true := by
  have ht : 1 ≤ t ∧ t ≤ 2 ^ 112 - 1 := of_decide_eq_true h
  obtain ⟨-, hE, hT⟩ := qnan_fields h
  exact (isNaN_iff _).mpr ⟨hE, by omega⟩

/-- `Config.qnanT` is one of the values the spec admits (R8). -/
theorem qnanTOk_config : qnanTOk Config.qnanT = true := by
  have h := Nat.mod_lt Config.qnanDraw (show 0 < 2 ^ 112 - 1 by decide)
  exact decide_eq_true ⟨Nat.le_add_left 1 _, h⟩

/-- Settles O11: the fields of `QNAN` are those it is packed from, and its sign tells it from
`SNAN`. -/
theorem nanWordsHaveTheirFields : Obligations.NaNWordsHaveTheirFields := by
  refine ⟨fun t h => ?_, by decide, qnanTOk_config⟩
  obtain ⟨hs, hE, hT⟩ := qnan_fields h
  refine ⟨isNaN_qnan h, hs, hE, hT, fun heq => ?_⟩
  have hsnan : signBit snan = true := by decide
  rw [← heq, hs] at hsnan
  cases hsnan

end Sys2Proof.Machine
end

section
/-! PROOFS. FPADD under exchange and under negation of its operands (40_fp_add.md R140, R150, R152). -/

namespace Sys2Proof.Machine

/-! ## Operand order -/

/-- Magnitudes combine to the same whichever stands first (R123). -/
theorem combine_comm (sa sb : Bool) (A B : Nat) : combine sa sb A B = combine sb sa B A := by
  rcases combine_cases sa sb A B with ⟨hs, h⟩ | ⟨hs, hlt, h⟩ | ⟨hs, hlt, h⟩ | ⟨hs, heq, h⟩
  · subst hs
    simp [combine, Nat.add_comm]
  · rw [h]
    simp [combine, hs.symm, hlt, Nat.lt_asymm hlt]
  · rw [h]
    simp [combine, hs.symm, hlt]
  · rw [h]
    simp [combine, hs.symm, heq]

/-- No place to align when the exponent fields are equal (R120). -/
theorem expDiff_eq_zero {a b : Word} (h : expField a = expField b) : expDiff a b = 0 := by
  simp [expDiff, unbiasedExp, h]

theorem alignRight_zero (B : Nat) : alignRight B 0 = B := by
  simp [alignRight, stickyOut]

/-- At equal exponents the general path takes the operands in either order (R123). -/
theorem generalPath_comm {a b : Word} (h : expField a = expField b) :
    generalPath a b = generalPath b a := by
  have he : unbiasedExp a = unbiasedExp b := by simp [unbiasedExp, h]
  rw [generalPath, generalPath, expDiff_eq_zero h, expDiff_eq_zero h.symm, alignRight_zero,
    alignRight_zero, combine_comm, he]

/-- At equal exponents the special cases do not see the order of the operands (R112 to R116). -/
theorem specialCase_comm (t : Nat) {a b : Word} (h : expField a = expField b) :
    specialCase t a b = specialCase t b a := by
  have hF : isFinite a = isFinite b := by simp [isFinite, h]
  have hIF : ∀ x, isInf x = true → isFinite x = false := by
    intro x hx
    simp [isFinite, ((isInf_iff x).mp hx).1]
  have hNE : (isNormal a && isE0 b) = false ∧ (isNormal b && isE0 a) = false := by
    simp only [isNormal, isE0, Bool.and_eq_false_iff, decide_eq_false_iff_not]
    omega
  unfold specialCase
  cases hia : isInf a <;> cases hib : isInf b
  · simp [hNE, Bool.or_comm]
  · simp [hF, hIF b hib, hNE, Bool.or_comm]
  · simp [← hF, hIF a hia, hNE, Bool.or_comm]
  · by_cases hs : signBit a = signBit b
    · simp [isInf_ext hia hib hs]
    · simp [hs, Ne.symm hs]

/-- FPADD does not depend on the order of its operands (R140). -/
theorem fpadd_comm (t : Nat) (a b : Word) : fpadd t a b = fpadd t b a := by
  rcases Nat.lt_trichotomy (expField a) (expField b) with h | h | h
  · simp [fpadd, orderOperands, h, Nat.lt_asymm h]
  · simp [fpadd, orderOperands, h, fpaddOrdered, specialCase_comm t h, generalPath_comm h]
  · simp [fpadd, orderOperands, h, Nat.lt_asymm h]

/-! ## Negating both operands -/

/-- `flip_sign` inverts the sign a word is packed with (R150). -/
theorem flipSign_pack (s : Bool) (E T : Nat) : flipSign (pack s E T) = pack (!s) E T :=
  word_ext (by simp) (by simp [expField_pack]) (by simp [trailing_pack])

/-- The encoder passes the sign through (R130, R131). -/
theorem encodeResult_not (s : Bool) (q : Nat) (eR : Int) :
    encodeResult (!s) q eR = flipSign (encodeResult s q eR) := by
  unfold encodeResult infOf
  split
  · rw [flipSign_pack]
  · split <;> rw [flipSign_pack]

theorem finish_not (s : Bool) (M : Nat) (eR : Int) :
    finish (!s) M eR = flipSign (finish s M eR) :=
  encodeResult_not _ _ _

/-- Inverting both signs inverts the sign of the combination (R123, R124). -/
theorem combine_not (sa sb : Bool) (A B : Nat) :
    combine (!sa) (!sb) A B = (combine sa sb A B).map fun p => (!p.1, p.2) := by
  have hn : (!sa) = (!sb) ↔ sa = sb := by cases sa <;> cases sb <;> decide
  unfold combine
  simp only [hn]
  split_ifs <;> rfl

@[simp] theorem isInf_flipSign (x : Word) : isInf (flipSign x) = isInf x := by simp [isInf]
@[simp] theorem isNaN_flipSign (x : Word) : isNaN (flipSign x) = isNaN x := by simp [isNaN]
@[simp] theorem isFinite_flipSign (x : Word) : isFinite (flipSign x) = isFinite x := by
  simp [isFinite]
@[simp] theorem isNormal_flipSign (x : Word) : isNormal (flipSign x) = isNormal x := by
  simp [isNormal]
@[simp] theorem isE0_flipSign (x : Word) : isE0 (flipSign x) = isE0 x := by simp [isE0]

/-- Negating both operands negates a special case's result, unless it is a NaN (R112 to R116). -/
theorem specialCase_flipSign {t : Nat} {a b : Word} (ht : qnanTOk t = true)
    (h : ∀ r, specialCase t a b = some r → isNaN r = false) :
    specialCase t (flipSign a) (flipSign b) = (specialCase t a b).map flipSign := by
  have hnot : ∀ {r}, specialCase t a b = some r → isNaN r = true → False := fun hr hn => by
    rw [h _ hr] at hn
    cases hn
  unfold specialCase at *
  simp only [isInf_flipSign, isNaN_flipSign, isFinite_flipSign, isNormal_flipSign, isE0_flipSign]
  by_cases h1 : (isInf a && isInf b) = true
  · by_cases hs : signBit a = signBit b
    · simp [h1, hs]
    · exact (hnot (r := snan) (by simp [h1, hs]) (by decide)).elim
  by_cases h2 : (isInf a && isFinite b) = true
  · simp only [h1, h2]; rfl
  by_cases h3 : (isInf b && isFinite a) = true
  · simp only [h1, h2, h3]; rfl
  by_cases h4 : (isNaN a || isNaN b) = true
  · exact (hnot (by rw [if_neg h1, if_neg h2, if_neg h3, if_pos h4]) (isNaN_qnan ht)).elim
  simp only [h1, h2, h3, h4]
  by_cases h5 : (isNormal a && isE0 b) = true <;> simp only [h5] <;> rfl

/-- The ordering of R111 looks at the exponents alone. -/
theorem orderOperands_flipSign (a b : Word) :
    orderOperands (flipSign a) (flipSign b) =
      (flipSign (orderOperands a b).1, flipSign (orderOperands a b).2) := by
  unfold orderOperands
  rw [expField_flipSign, expField_flipSign]
  split <;> rfl

/-- Negating both operands negates the general path's result, unless it is a zero (R120 to R131). -/
theorem generalPath_flipSign {a b : Word} (hz : isZero (generalPath a b) = false) :
    generalPath (flipSign a) (flipSign b) = flipSign (generalPath a b) := by
  have hd : expDiff (flipSign a) (flipSign b) = expDiff a b := by simp [expDiff]
  unfold generalPath at *
  simp only [signBit_flipSign, significand_flipSign, unbiasedExp_flipSign, hd, combine_not]
  split at hz
  · exact absurd hz (by decide)
  · simp [finish_not, *]

/-- FPADD of negated operands is the negated sum, unless that is a zero or a NaN (R8, R112 to R131). -/
theorem fpadd_flipSign {t : Nat} {a b : Word} (ht : qnanTOk t = true)
    (hz : isZero (fpadd t a b) = false) (hn : isNaN (fpadd t a b) = false) :
    fpadd t (flipSign a) (flipSign b) = flipSign (fpadd t a b) := by
  unfold fpadd at *
  rw [orderOperands_flipSign]
  generalize (orderOperands a b).1 = x at *
  generalize (orderOperands a b).2 = y at *
  have hs := specialCase_flipSign (a := x) (b := y) ht fun r hr => by
    rwa [fpaddOrdered_some hr] at hn
  cases hc : specialCase t x y with
  | some r =>
    rw [hc] at hs
    rw [fpaddOrdered_some hc, fpaddOrdered_some hs]
  | none =>
    rw [hc] at hs
    rw [fpaddOrdered_none hc] at hz ⊢
    rw [fpaddOrdered_none hs, generalPath_flipSign hz]

/-- Settles O33: `b − a` is `a − b` with both operands of FPADD negated and in the other order. -/
theorem subtractionIsAntisymmetric : Obligations.SubtractionIsAntisymmetric := by
  intro t a b ht hz hn
  have hsub : ∀ x y, addsub t 1#1 x y = fpadd t x (flipSign y) := fun x y => rfl
  rw [hsub] at hz hn
  calc addsub t 1#1 a b
      = flipSign (flipSign (fpadd t a (flipSign b))) := by rw [hsub, flipSign_flipSign]
    _ = flipSign (fpadd t (flipSign a) (flipSign (flipSign b))) := by rw [fpadd_flipSign ht hz hn]
    _ = flipSign (addsub t 1#1 b a) := by rw [flipSign_flipSign, fpadd_comm, hsub]

end Sys2Proof.Machine
end

section
/-! PROOFS. The 128-bit container design follows the integer design step by step (40_fp_add.md R121 to R131). -/

namespace Sys2Proof.Machine

/-! ## The left loop in closed form -/

/-- The left loop is one shift that brings bit 115 up, limited by the exponent's floor (R127). -/
theorem normalize_eq_shift {M : Nat} {eR : Int} (h0 : M ≠ 0) (hM : M < 2 ^ 116)
    (he : -16382 ≤ eR) :
    normalize M eR = (M * 2 ^ min (115 - M.log2) (eR + 16382).toNat,
      eR - (min (115 - M.log2) (eR + 16382).toNat : Nat)) := by
  obtain ⟨k, hk, hlt, hfloor, hexit⟩ := normalize_left hM he
  have hlow : 2 ^ M.log2 ≤ M := Nat.log2_self_le h0
  have hup : M.log2 + k < 116 := by
    rw [← Nat.pow_lt_pow_iff_right (a := 2) (by decide), Nat.pow_add]
    exact (Nat.mul_le_mul_right _ hlow).trans_lt hlt
  have htop : 2 ^ 115 ≤ M * 2 ^ k → 115 ≤ M.log2 + k := fun h => by
    have : 2 ^ 115 < 2 ^ (M.log2 + 1 + k) := by
      rw [Nat.pow_add]
      exact h.trans_lt (Nat.mul_lt_mul_of_pos_right Nat.lt_log2_self (Nat.two_pow_pos k))
    rw [Nat.pow_lt_pow_iff_right (by decide)] at this
    omega
  have hmin : min (115 - M.log2) (eR + 16382).toNat = k := by omega
  rw [hk, hmin]

/-- With the exponent at its floor, left normalization leaves everything as it is (R127). -/
theorem normalize_at_floor {M : Nat} (hM : M < 2 ^ 116) : normalize M (-16382) = (M, -16382) := by
  obtain ⟨k, hk, -, hfloor, -⟩ := normalize_left hM (le_refl (-16382))
  have hk0 : k = 0 := by omega
  simpa [hk0] using hk

/-! ## The steps of the container design -/

/-- Shifting left loses nothing while the product fits the container (R121). -/
theorem toNat_shiftLeft_of_lt {x : Word} {k : Nat} (h : x.toNat * 2 ^ k < 2 ^ 128) :
    (x <<< k).toNat = x.toNat * 2 ^ k := by
  rw [BitVec.toNat_shiftLeft, Nat.shiftLeft_eq, Nat.mod_eq_of_lt h]

theorem toNat_and_trailingMask (x : Word) : (x &&& trailingMask).toNat = x.toNat % 2 ^ 112 := by
  rw [BitVec.toNat_and, show trailingMask.toNat = 2 ^ 112 - 1 by decide,
    Nat.and_two_pow_sub_one_eq_mod]

/-- The container holds the significand (R86). -/
theorem significand128_toNat (x : Word) : (significand128 x).toNat = significand x := by
  unfold significand128 significand
  split
  · rw [toNat_and_trailingMask, trailing_eq]
  · rw [BitVec.toNat_or, toNat_and_trailingMask, trailing_eq,
      show implicitBit.toNat = 2 ^ 112 by decide]

/-- The widened significand has 116 bits (R121, R125). -/
theorem widen_significand_lt (x : Word) : widen (significand x) < 2 ^ 116 := by
  have h := significand_lt x
  rw [widen_eq]
  omega

/-- The container holds the widened significand (R121). -/
theorem widened128_toNat (x : Word) : (significand128 x <<< 3).toNat = widen (significand x) := by
  have h := significand_lt x
  rw [toNat_shiftLeft_of_lt] <;> rw [significand128_toNat]
  · rw [widen_eq]; omega
  · omega

/-- The document's mask: `d` ones, all ones from `d = 128` on (R122). -/
theorem mask128_toNat (d : Nat) :
    (subBorrow (1#128 <<< d) 1#128).2.toNat = 2 ^ min d 128 - 1 := by
  simp only [subBorrow]
  rcases Nat.lt_or_ge d 128 with h | h
  · have hp : 2 ^ d < 2 ^ 128 := Nat.pow_lt_pow_right (by decide) h
    have h1 : 1 ≤ 2 ^ d := Nat.one_le_two_pow
    have hs : (1#128 <<< d).toNat = 2 ^ d := by
      rw [toNat_shiftLeft_of_lt] <;> rw [show (1#128).toNat = 1 by decide, Nat.one_mul]
      exact hp
    rw [BitVec.toNat_sub_of_le (by rw [BitVec.le_def, hs]; simpa using h1), hs,
      Nat.min_eq_left h.le]
    rfl
  · rw [BitVec.shiftLeft_eq_zero h, Nat.min_eq_right h]
    decide

/-- The sticky bit (R122). -/
theorem stickyOut128_toNat (B : Word) (d : Nat) :
    (stickyOut128 B d).toNat = stickyOut B.toNat d := by
  have hiff : (B &&& (subBorrow (1#128 <<< d) 1#128).2 ≠ 0#128) ↔
      (B.toNat &&& (2 ^ min d 128 - 1) ≠ 0) := by
    rw [Ne, ← BitVec.toNat_inj, BitVec.toNat_and, mask128_toNat]
    rfl
  unfold stickyOut128 stickyOut
  simp only [hiff]
  split <;> rfl

/-- Alignment (R122). -/
theorem alignRight128_toNat (B : Word) (d : Nat) :
    (alignRight128 B d).toNat = alignRight B.toNat d := by
  rw [alignRight128, BitVec.toNat_or, BitVec.toNat_ushiftRight, stickyOut128_toNat, alignRight]

/-- The combination: the container neither carries out nor borrows (R123 to R125). -/
theorem combine128_toNat (sa sb : Bool) {A B : Word} (h : A.toNat + B.toNat < 2 ^ 128) :
    (combine128 sa sb A B).map (fun p => (p.1, p.2.toNat)) =
      combine sa sb A.toNat B.toNat := by
  unfold combine128 combine
  simp only [BitVec.lt_def]
  split_ifs with _ hBA hAB
  · simp only [addCarry, BitVec.toNat_add, Option.map_some, Nat.mod_eq_of_lt h]
  · simp [subBorrow, BitVec.toNat_sub_of_le (BitVec.le_def.mpr hBA.le)]
  · simp [subBorrow, BitVec.toNat_sub_of_le (BitVec.le_def.mpr hAB.le)]
  · rfl

/-- The left shift's count (R11, R127). -/
theorem leftPlaces_eq {M : Word} (eR : Int) (h0 : M.toNat ≠ 0) :
    leftPlaces M eR = min (115 - M.toNat.log2) (eR + 16382).toNat := by
  rw [leftPlaces, lzc128, if_neg h0]
  omega

/-- Normalization: one shift does what the loop does, when a zero magnitude comes with the least
exponent (R126, R127). -/
theorem normalize128_toNat {M : Word} {eR : Int} (hM : M.toNat < 2 ^ 117) (he : -16382 ≤ eR)
    (h0 : M.toNat = 0 → eR = -16382) :
    ((normalize128 M eR).1.toNat, (normalize128 M eR).2) = normalize M.toNat eR := by
  by_cases ht : M.toNat.testBit 116 = true
  · have ht' : M.getLsbD 116 = true := ht
    simp [normalize128, normalize, ht, ht']
  have hlt : M.toNat < 2 ^ 116 := by
    rw [testBit_top hM] at ht
    simpa using ht
  have hshift : normalize128 M eR = (M <<< leftPlaces M eR, eR - leftPlaces M eR) := if_neg ht
  rw [hshift]
  by_cases hz : M.toNat = 0
  · have hp : leftPlaces M eR = 0 := by rw [leftPlaces, h0 hz]; simp
    rw [hp, h0 hz, normalize_at_floor hlt]
    simp
  · obtain ⟨hb, -, -, -⟩ := normalize_bounds hM he
    have hn := normalize_eq_shift hz hlt he
    rw [hn, ← leftPlaces_eq eR hz] at hb ⊢
    rw [toNat_shiftLeft_of_lt (hb.trans (by decide))]

/-- Rounding (R128). -/
theorem roundNearest128_toNat {M : Word} (hM : M.toNat < 2 ^ 116) :
    (roundNearest128 M).toNat = roundNearest M.toNat := by
  have h3 : (M >>> 3).toNat = M.toNat >>> 3 := BitVec.toNat_ushiftRight M 3
  have hlt : M.toNat >>> 3 + 1 < 2 ^ 128 := by
    rw [Nat.shiftRight_eq_div_pow]; omega
  have hc : (M.getLsbD 2 && (M.getLsbD 3 || M.getLsbD 1 || M.getLsbD 0)) = roundsUp M.toNat := rfl
  rw [roundNearest128, roundNearest, hc]
  split
  · rw [addCarry, BitVec.toNat_add, h3]
    exact Nat.mod_eq_of_lt hlt
  · exact h3

/-- The rounding carry (R129). -/
theorem roundCarry128_toNat (q : Word) (eR : Int) :
    ((roundCarry128 q eR).1.toNat, (roundCarry128 q eR).2) = roundCarry q.toNat eR := by
  have hiff : q = 1#128 <<< 113 ↔ q.toNat = 2 ^ 113 := by
    rw [← BitVec.toNat_inj, show (1#128 <<< 113).toNat = 2 ^ 113 by decide]
  unfold roundCarry128 roundCarry
  simp only [hiff]
  split <;> simp

/-- ORing the fields together packs them (R84, R131). -/
theorem assemble128_eq_pack (s : Bool) {E : Nat} (T : Word) (hE : E < 2 ^ 15) :
    assemble128 s E T = pack s E (T.toNat % 2 ^ 112) := by
  apply BitVec.eq_of_toNat_eq
  have hT : T.toNat % 2 ^ 112 < 2 ^ 112 := Nat.mod_lt _ (Nat.two_pow_pos 112)
  have hES : (BitVec.ofNat 128 E <<< 112).toNat = E <<< 112 := by
    rw [toNat_shiftLeft_of_lt] <;> rw [BitVec.toNat_ofNat, Nat.mod_eq_of_lt (by omega)]
    · rw [Nat.shiftLeft_eq]
    · omega
  have hlow : E <<< 112 ||| T.toNat % 2 ^ 112 = E * 2 ^ 112 + T.toNat % 2 ^ 112 := by
    rw [← Nat.shiftLeft_add_eq_or_of_lt hT, Nat.shiftLeft_eq]
  have hsign : (if s then 1#128 <<< 127 else 0#128).toNat = s.toNat <<< 127 := by
    cases s <;> decide
  rw [assemble128, BitVec.toNat_or, BitVec.toNat_or, toNat_and_trailingMask, hES, hsign,
    Nat.or_assoc, hlow, ← Nat.shiftLeft_add_eq_or_of_lt (by omega), Nat.shiftLeft_eq, pack_toNat,
    Nat.mod_eq_of_lt hE, Nat.mod_mod, Nat.add_assoc]

/-- The encoder (R130, R131). -/
theorem encodeResult128_eq (s : Bool) (q : Word) (eR : Int) :
    encodeResult128 s q eR = encodeResult s q.toNat eR := by
  unfold encodeResult128 encodeResult infOf
  by_cases h : 16383 < eR
  · rw [if_pos h, if_pos h, assemble128_eq_pack s _ (by decide)]
    rfl
  · rw [if_neg h, if_neg h, assemble128_eq_pack s _ (by omega), assemble128_eq_pack s _ (by decide)]
    rfl

/-! ## The container design as a whole -/

/-- A zero magnitude comes only from words of the least exponent (R124, R127). -/
theorem unbiasedExp_of_combine_zero {sa sb s : Bool} {a : Word} {B : Nat}
    (h : combine sa sb (widen (significand a)) B = some (s, 0)) : unbiasedExp a = -16382 := by
  have hA : widen (significand a) = 0 := by
    rcases combine_cases sa sb (widen (significand a)) B with
      ⟨-, hc⟩ | ⟨-, hlt, hc⟩ | ⟨-, hlt, hc⟩ | ⟨-, -, hc⟩ <;> simp [hc] at h <;> omega
  have hE : expField a = 0 := by
    by_contra hne
    have := le_significand hne
    rw [widen_eq] at hA
    omega
  simp [unbiasedExp, hE]

/-- Normalization, rounding and encoding in the container (R126 to R131). -/
theorem finish128_eq (s : Bool) {M : Word} {eR : Int} (hM : M.toNat < 2 ^ 117)
    (he : -16382 ≤ eR) (h0 : M.toNat = 0 → eR = -16382) :
    encodeResult128 s
      (roundCarry128 (roundNearest128 (normalize128 M eR).1) (normalize128 M eR).2).1
      (roundCarry128 (roundNearest128 (normalize128 M eR).1) (normalize128 M eR).2).2 =
    finish s M.toNat eR := by
  have hn := normalize128_toNat hM he h0
  obtain ⟨hb, -, -, -⟩ := normalize_bounds hM he
  rw [← hn] at hb
  have hr := roundCarry128_toNat (roundNearest128 (normalize128 M eR).1) (normalize128 M eR).2
  rw [roundNearest128_toNat hb] at hr
  rw [encodeResult128_eq, finish, ← hn, ← hr]

/-- The general path in the container (R120 to R131). -/
theorem generalPath128_eq {a : Word} (b : Word) (ha : isFinite a = true) :
    generalPath128 a b = generalPath a b := by
  have hB := alignRight_lt (widen_significand_lt b) (expDiff a b)
  have hA := widen_significand_lt a
  have hsum : (significand128 a <<< 3).toNat +
      (alignRight128 (significand128 b <<< 3) (expDiff a b)).toNat < 2 ^ 128 := by
    rw [alignRight128_toNat, widened128_toNat, widened128_toNat]
    omega
  have hc := combine128_toNat (signBit a) (signBit b) hsum
  rw [alignRight128_toNat, widened128_toNat, widened128_toNat] at hc
  rw [generalPath128, generalPath, ← hc]
  cases hr : combine128 (signBit a) (signBit b) (significand128 a <<< 3)
      (alignRight128 (significand128 b <<< 3) (expDiff a b)) with
  | none => rfl
  | some p =>
    obtain ⟨s, M⟩ := p
    rw [hr] at hc
    have hM : M.toNat < 2 ^ 117 := combine_lt hA hB hc.symm
    refine finish128_eq s hM (unbiasedExp_bounds ha).1 fun h0 => ?_
    exact unbiasedExp_of_combine_zero (s := s) (by rw [← hc, Option.map_some, h0])

/-- Settles O23: both designs share the ordering and the special cases, and the container's general
path follows the integers step by step on finite operands. -/
theorem containerDesignAgrees : Obligations.ContainerDesignAgrees := by
  intro t a b
  have ho : expField (orderOperands a b).2 ≤ expField (orderOperands a b).1 := by
    rcases orderOperands_cases a b with ⟨h, he⟩ | ⟨h, he⟩ <;> rw [he] <;> simp only <;> omega
  unfold fpadd128 fpadd fpaddOrdered
  cases hc : specialCase t (orderOperands a b).1 (orderOperands a b).2 with
  | some r => rfl
  | none => exact generalPath128_eq _ (specialCase_none hc ho).1

end Sys2Proof.Machine
end

section
/-! PROOFS. What one edge leaves, for each thing the host can drive at it, and what a run is (10_state.md R37, R38; 70_reset_and_hazards.md R190, R195). -/

namespace Sys2Proof.Machine

/-! ## The outcome of an edge -/

/-- A reset edge completes in every state (R190). -/
theorem step_of_reset {s : State} (hr : s.nextDrive.rst = true) :
    step s = .next s.atEdge.resetEdge := by
  rw [step, State.clockEdge, edgeInput_of_rst hr]

/-- An idle edge completes in every state (R38). -/
theorem step_of_idle {s : State} (hr : s.nextDrive.rst = false)
    (hv : s.nextDrive.inValid = false) : step s = .next s.atEdge.idleEdge := by
  rw [step, State.clockEdge, edgeInput_of_idle hr hv]

/-- A request whose operands the host has is accepted with its value (R37, R38). -/
theorem step_of_request {s : State} {a b : Word} (hr : s.nextDrive.rst = false)
    (hv : s.nextDrive.inValid = true) (ha : s.nextDrive.inA.resolve s.atEdge = .ok a)
    (hb : s.nextDrive.inB.resolve s.atEdge = .ok b) :
    step s = .next (s.atEdge.accept (addsub Config.qnanT s.nextDrive.inOp a b)) := by
  simp only [step, State.clockEdge, edgeInput_of_request hr hv ha hb, exec_decodeRequest,
    packRequest_op, packRequest_a, packRequest_b]

/-- The three ways in which a step answers a next state. -/
theorem step_next_cases {s s' : State} (h : step s = .next s') :
    (s.nextDrive.rst = true ∧ s' = s.atEdge.resetEdge) ∨
    (s.nextDrive.rst = false ∧ s.nextDrive.inValid = false ∧ s' = s.atEdge.idleEdge) ∨
    (∃ a b, s.nextDrive.rst = false ∧ s.nextDrive.inValid = true ∧
      s.nextDrive.inA.resolve s.atEdge = .ok a ∧ s.nextDrive.inB.resolve s.atEdge = .ok b ∧
      s' = s.atEdge.accept (addsub Config.qnanT s.nextDrive.inOp a b)) := by
  rcases step_cases s with ⟨hr, hs⟩ | ⟨hr, hv, hs⟩ | ⟨a, b, hr, hv, ha, hb, hs⟩ |
    ⟨n, -, -, -, -, hs⟩ <;> rw [hs] at h <;> cases h
  · exact .inl ⟨hr, rfl⟩
  · exact .inr (.inl ⟨hr, hv, rfl⟩)
  · exact .inr (.inr ⟨a, b, hr, hv, ha, hb, rfl⟩)

/-- The block's side of an edge touches nothing of the host's record (log 1, 7, 20). -/
theorem step_hostSide {s s' : State} (h : step s = .next s') :
    s'.pending = s.atEdge.pending ∧ s'.responses = s.atEdge.responses ∧
      s'.resetSeen = s.atEdge.resetSeen ∧ s'.earlyRequest = s.atEdge.earlyRequest := by
  rcases step_next_cases h with ⟨-, rfl⟩ | ⟨-, -, rfl⟩ | ⟨a, b, -, -, -, -, rfl⟩
  · exact ⟨rfl, rfl, rfl, rfl⟩
  · exact ⟨rfl, rfl, rfl, rfl⟩
  · exact ⟨rfl, rfl, rfl, rfl⟩

/-- No edge changes the number of stages (R34). -/
theorem step_latency {s s' : State} (h : step s = .next s') : s'.latency = s.latency := by
  rcases step_next_cases h with ⟨-, rfl⟩ | ⟨-, -, rfl⟩ | ⟨a, b, -, -, -, -, rfl⟩
  · rw [State.resetEdge_latency, State.atEdge_latency]
  · rw [State.idleEdge_latency, State.atEdge_latency]
  · rw [State.accept_latency, State.atEdge_latency]

/-- A launched block is launched after the edge (R195). -/
theorem State.Launched.of_step {s s' : State} (hl : s.Launched) (h : step s = .next s') :
    s'.Launched := by
  obtain ⟨-, -, hrs, her⟩ := step_hostSide h
  exact ⟨hrs.trans hl.atEdge.resetSeen, her.trans hl.atEdge.noEarlyRequest⟩

theorem acceptedResult_of_idle {s : State} (hr : s.nextDrive.rst = false)
    (hv : s.nextDrive.inValid = false) : s.acceptedResult = none := by
  rw [State.acceptedResult, edgeInput_of_idle hr hv]

theorem acceptedResult_of_request {s : State} {a b : Word} (hr : s.nextDrive.rst = false)
    (hv : s.nextDrive.inValid = true) (ha : s.nextDrive.inA.resolve s.atEdge = .ok a)
    (hb : s.nextDrive.inB.resolve s.atEdge = .ok b) :
    s.acceptedResult = some (addsub Config.qnanT s.nextDrive.inOp a b) := by
  simp only [State.acceptedResult, edgeInput_of_request hr hv ha hb, packRequest_op, packRequest_a,
    packRequest_b]

/-- An edge without reset shifts the pipeline by one stage, which holds the accepted request's value
or, without a request, nothing (R38). -/
theorem step_stages {s s' : State} (hr : s.nextDrive.rst = false) (h : step s = .next s') :
    ∃ st : Stage, s'.stages = st :: s.stages.dropLast ∧ st.valid = s.nextDrive.inValid ∧
      st.response = s.acceptedResult := by
  rcases step_next_cases h with ⟨hr', -⟩ | ⟨-, hv, rfl⟩ | ⟨a, b, -, hv, ha, hb, rfl⟩
  · rw [hr] at hr'
    cases hr'
  · exact ⟨_, s.atEdge.idleEdge_stages, hv.symm, (acceptedResult_of_idle hr hv).symm⟩
  · exact ⟨_, s.atEdge.accept_stages _, hv.symm, (acceptedResult_of_request hr hv ha hb).symm⟩

/-! ## Runs -/

/-- A run of one edge more completes when its first edge and the rest do. -/
theorem runEdges_succ_eq_next {k : Nat} {s t : State} :
    runEdges (k + 1) s = .next t ↔ ∃ s', step s = .next s' ∧ runEdges k s' = .next t := by
  rw [runEdges_succ]
  cases step s <;> simp

theorem runEdges_succ_of_step {k : Nat} {s s' : State} (h : step s = .next s') :
    runEdges (k + 1) s = runEdges k s' := by
  rw [runEdges_succ, h]

/-- What every edge keeps, every run keeps. -/
theorem runEdges_keeps {P : State → Prop}
    (hstep : ∀ s s' : State, P s → step s = .next s' → P s') {k : Nat} {s t : State} (hs : P s)
    (h : runEdges k s = .next t) : P t := by
  induction k generalizing s with
  | zero =>
    rw [runEdges_zero] at h
    cases h
    exact hs
  | succ k ih =>
    obtain ⟨s', h1, h2⟩ := runEdges_succ_eq_next.mp h
    exact ih (hstep s s' hs h1) h2

/-- Settles O51: no edge changes the latency, so no run does. -/
theorem latencyIsFixed : Obligations.LatencyIsFixed := fun _ s _ h =>
  runEdges_keeps (P := fun t => t.latency = s.latency)
    (fun _ _ ht h1 => (step_latency h1).trans ht) rfl h

/-- Settles O57: the record of the host's side is that of `State.atEdge`. -/
theorem hostSideOfAnEdge : Obligations.HostSideOfAnEdge := by
  intro s s' h
  obtain ⟨hp, hre, hrs, her⟩ := step_hostSide h
  refine ⟨hp, ?_, ?_, ?_⟩
  · rw [hre, State.atEdge_responses, State.presented]
    cases s.resetSeen <;> cases s.outValid <;> rfl
  · rw [hrs, State.atEdge_resetSeen, Bool.or_eq_true]
  · rw [her, State.atEdge_earlyRequest]
    simp [and_assoc]

end Sys2Proof.Machine
end

section
/-! PROOFS. The invariant: the reset and power-on states meet it and every step keeps it (10_state.md R38, R43, R44; 60_exceptions.md R171). -/

namespace Sys2Proof.Machine

/-! ## The NaN results of FPADD -/

theorem CanonicalNaN.of_not_isNaN {w : Word} (h : isNaN w = false) : CanonicalNaN w := fun hn => by
  rw [h] at hn
  cases hn

theorem isNaN_of_isFinite {x : Word} (h : isFinite x = true) : isNaN x = false :=
  decide_eq_false fun hn => (isFinite_iff x).mp h hn.1

theorem isNaN_of_isInf {x : Word} (h : isInf x = true) : isNaN x = false :=
  decide_eq_false fun hn => hn.2 ((isInf_iff x).mp h).2

theorem isNaN_of_isNormal {x : Word} (h : isNormal x = true) : isNaN x = false :=
  decide_eq_false fun hn => by have := (isNormal_iff x).mp h; omega

/-- The exponent floor, for every word (R85). -/
theorem le_unbiasedExp (x : Word) : -16382 ≤ unbiasedExp x := by
  unfold unbiasedExp
  split <;> omega

/-- The general path never gives a NaN (R132). -/
theorem isNaN_generalPath (a b : Word) : isNaN (generalPath a b) = false := by
  unfold generalPath
  split
  · decide
  · rename_i s M hc
    have hM : M < 2 ^ 117 :=
      combine_lt (widen_significand_lt a) (alignRight_lt (widen_significand_lt b) _) hc
    rcases finish_class (s := s) hM (le_unbiasedExp a) with h | h
    · rw [h]
      cases s <;> decide
    · exact isNaN_of_isFinite h

/-- The special cases give an operand that is no NaN, `SNAN` or `QNAN` (R112 to R115). -/
theorem canonicalNaN_specialCase {a b r : Word} (h : specialCase Config.qnanT a b = some r) :
    CanonicalNaN r := by
  unfold specialCase at h
  split_ifs at h with hii hs hif hfi hnan hn <;> cases h
  · exact .of_not_isNaN (isNaN_of_isInf (Bool.and_eq_true_iff.mp hii).1)
  · exact fun _ => .inr rfl
  · exact .of_not_isNaN (isNaN_of_isInf (Bool.and_eq_true_iff.mp hif).1)
  · exact .of_not_isNaN (isNaN_of_isInf (Bool.and_eq_true_iff.mp hfi).1)
  · exact fun _ => .inl rfl
  · exact .of_not_isNaN (isNaN_of_isNormal (Bool.and_eq_true_iff.mp hn).1)

theorem canonicalNaN_fpadd (a b : Word) : CanonicalNaN (fpadd Config.qnanT a b) := by
  unfold fpadd fpaddOrdered
  split
  · exact canonicalNaN_specialCase ‹_›
  · exact .of_not_isNaN (isNaN_generalPath _ _)

/-- The NaN results of a request are `QNAN` and `SNAN` (R171). -/
theorem canonicalNaN_addsub (op : BitVec 1) (a b : Word) :
    CanonicalNaN (addsub Config.qnanT op a b) := by
  unfold addsub
  split
  · exact canonicalNaN_fpadd a b
  · exact canonicalNaN_fpadd a (flipSign b)

/-! ## The invariant at the start -/

theorem powerOnStages_length (n k : Nat) : (powerOnStages n k).length = n := by
  induction n generalizing k with
  | zero => rfl
  | succ n ih => simp [powerOnStages, ih]

theorem State.powerOn_latency : State.powerOn.latency = Config.latency := by
  simp [State.latency, State.powerOn, powerOnStages_length, Config.latency]

theorem State.reset_empty : State.reset.Empty := fun _ hst => by
  rw [State.reset_stages] at hst
  exact (drawnStages_mem hst).1

/-- Settles O52: the stages of the reset state are drawn; of those of the power-on state the
invariant says nothing. -/
theorem resetMeetsTheInvariant : Obligations.ResetMeetsTheInvariant := by
  refine ⟨⟨State.reset_latency, fun _ st hst _ => ?_, fun _ st hst hv => ?_, fun _ hw => ?_, nofun⟩,
    ⟨State.powerOn_latency, nofun, nofun, fun _ hw => ?_, fun _ => rfl⟩⟩
  · rw [State.reset_stages] at hst
    obtain ⟨-, m, -, hm, hres⟩ := drawnStages_mem hst
    exact ⟨m, by simpa [State.reset] using hm, hres⟩
  · rw [State.reset_empty st hst] at hv
    cases hv
  · cases hw
  · cases hw

/-! ## The invariant over an edge -/

/-- What the host takes from the outputs is no NaN but `QNAN` and `SNAN` (R171, R195). -/
theorem State.Inv.presented {s : State} (hi : s.Inv) {w : Word} (h : s.presented = some w) :
    CanonicalNaN w := by
  unfold State.presented at h
  split_ifs at h with hc
  cases h
  obtain ⟨hrs, hv⟩ := Bool.and_eq_true_iff.mp hc
  exact hi.stageNaN hrs _ s.lastStage_mem hv

theorem State.Inv.atEdge_responseNaN {s : State} (hi : s.Inv) :
    ∀ w ∈ s.atEdge.responses, CanonicalNaN w := by
  intro w hw
  rw [State.atEdge_responses, List.mem_append, Option.mem_toList] at hw
  exact hw.elim (hi.responseNaN w) hi.presented

theorem State.Inv.atEdge_nothingBeforeReset {s : State} (hi : s.Inv)
    (h : s.atEdge.resetSeen = false) : s.atEdge.responses = [] := by
  have hrs : s.resetSeen = false := (Bool.or_eq_false_iff.mp h).1
  rw [State.atEdge_responses, hi.nothingBeforeReset hrs, State.presented_beforeReset hrs]
  rfl

/-- The host's side of an edge without reset keeps the invariant. -/
theorem State.Inv.atEdge {s : State} (hi : s.Inv) (hr : s.nextDrive.rst = false) :
    s.atEdge.Inv := by
  have hrs : s.atEdge.resetSeen = s.resetSeen := by rw [State.atEdge_resetSeen, hr, Bool.or_false]
  exact ⟨hi.latency, fun h => hi.idleIsDrawn (hrs ▸ h), fun h => hi.stageNaN (hrs ▸ h),
    hi.atEdge_responseNaN, hi.atEdge_nothingBeforeReset⟩

/-- The stages after a shift are the new one and some of the old ones (R38). -/
theorem State.mem_shift_stages {s : State} {new st : Stage} (h : st ∈ new :: s.stages.dropLast) :
    st = new ∨ st ∈ s.stages :=
  (List.mem_cons.mp h).imp_right List.mem_of_mem_dropLast

theorem State.Inv.idleEdge {s : State} (hi : s.Inv) : s.idleEdge.Inv := by
  refine ⟨s.idleEdge_latency.trans hi.latency, fun hrs st hst hv => ?_, fun hrs st hst hv => ?_,
    hi.responseNaN, hi.nothingBeforeReset⟩
  · rw [State.idleEdge_draws]
    rcases State.mem_shift_stages hst with rfl | hst
    · exact ⟨s.draws, Nat.lt_succ_self _, rfl⟩
    · obtain ⟨n, hn, hres⟩ := hi.idleIsDrawn hrs st hst hv
      exact ⟨n, Nat.lt_succ_of_lt hn, hres⟩
  · rcases State.mem_shift_stages hst with rfl | hst
    · cases hv
    · exact hi.stageNaN hrs st hst hv

theorem State.Inv.accept {s : State} (hi : s.Inv) {r : Word} (hc : CanonicalNaN r) :
    (s.accept r).Inv := by
  refine ⟨(s.accept_latency r).trans hi.latency, fun hrs st hst hv => ?_, fun hrs st hst hv => ?_,
    hi.responseNaN, hi.nothingBeforeReset⟩
  · rcases State.mem_shift_stages hst with rfl | hst
    · cases hv
    · exact hi.idleIsDrawn hrs st hst hv
  · rcases State.mem_shift_stages hst with rfl | hst
    · exact hc
    · exact hi.stageNaN hrs st hst hv

/-- A reset edge draws every stage anew, so it asks nothing of the stages before it (R190): it keeps
the invariant at the first reset edge as well. -/
theorem State.inv_resetEdge {s : State} (hl : s.latency = Config.latency)
    (hw : ∀ w ∈ s.responses, CanonicalNaN w) (hn : s.resetSeen = false → s.responses = []) :
    s.resetEdge.Inv := by
  refine ⟨s.resetEdge_latency.trans hl, fun _ st hst _ => ?_, fun _ st hst hv => ?_, hw, hn⟩
  · rw [State.resetEdge_stages] at hst
    obtain ⟨-, m, -, hm, hres⟩ := drawnStages_mem hst
    exact ⟨m, hm, hres⟩
  · rw [s.resetEdge_empty st hst] at hv
    cases hv

/-- Settles O53: an idle edge and an accepted request shift one good stage into the pipeline, and a
reset edge draws all of them anew. -/
theorem stepKeepsTheInvariant : Obligations.StepKeepsTheInvariant := by
  intro s s' hi h
  rcases step_next_cases h with ⟨-, rfl⟩ | ⟨hr, -, rfl⟩ | ⟨a, b, hr, -, -, -, rfl⟩
  · exact State.inv_resetEdge hi.latency hi.atEdge_responseNaN hi.atEdge_nothingBeforeReset
  · exact (hi.atEdge hr).idleEdge
  · exact (hi.atEdge hr).accept (canonicalNaN_addsub _ a b)

end Sys2Proof.Machine
end

section
/-! PROOFS. What the pipeline holds after an edge: the shift, the accepted request, the outputs and the reset (10_state.md R37 to R43). -/

namespace Sys2Proof.Machine

/-! ## The pins of an edge -/

theorem nextDrive_of_pending {s : State} {d : Drive} {rest : List Drive}
    (hp : s.pending = d :: rest) : s.nextDrive = d := by
  rw [State.nextDrive, hp, List.headD_cons]

/-- The next drive is one of those pending, or the quiet one when nothing is (log 1). -/
theorem nextDrive_cases (s : State) (k : Nat) :
    s.nextDrive ∈ s.pending.take (k + 1) ∨ s.nextDrive = Drive.quiet := by
  cases hp : s.pending with
  | nil => exact .inr (by rw [State.nextDrive, hp, List.headD_nil])
  | cons d rest => exact .inl (by rw [nextDrive_of_pending hp]; exact List.mem_cons_self)

theorem State.NoReset.nextDrive {s : State} {k : Nat} (h : s.NoReset (k + 1)) :
    s.nextDrive.rst = false := by
  rcases nextDrive_cases s k with hd | hd
  · exact h _ hd
  · rw [hd]; rfl

/-- The edges after the first one are those of the drives after the first one (log 1). -/
theorem take_succ_pending (s : State) (k : Nat) :
    s.pending.take (k + 1) = s.pending.take 1 ++ s.atEdge.pending.take k := by
  rw [Nat.add_comm, List.take_add, List.drop_one, State.atEdge_pending]

theorem State.NoReset.of_step {s s' : State} {k : Nat} (h : s.NoReset (k + 1))
    (hs : step s = .next s') : s'.NoReset k := by
  intro d hd
  rw [(step_hostSide hs).1] at hd
  exact h d (by rw [take_succ_pending]; exact List.mem_append_right _ hd)

/-- Settles O43: a refusal names a response that one of the two operands asks for, and a drive
without such operands is none of those refused. -/
theorem onlyMissingFeedbackRefuses : Obligations.OnlyMissingFeedbackRefuses := by
  refine ⟨fun s hd => ?_, fun s r h => ?_, fun s f h => ?_⟩
  · have hfree : ∀ n, s.nextDrive.inA ≠ .response n ∧ s.nextDrive.inB ≠ .response n := by
      rcases nextDrive_cases s 0 with hn | hn
      · exact hd _ hn
      · rw [hn]
        exact fun n => ⟨nofun, nofun⟩
    rcases step_cases s with ⟨-, hs⟩ | ⟨-, -, hs⟩ | ⟨a, b, -, -, -, -, hs⟩ | ⟨n, -, -, hab, -, -⟩
    · exact ⟨_, hs⟩
    · exact ⟨_, hs⟩
    · exact ⟨_, hs⟩
    · exact (hab.elim (hfree n).1 (hfree n).2).elim
  · rcases step_cases s with ⟨-, hs⟩ | ⟨-, -, hs⟩ | ⟨a, b, -, -, -, -, hs⟩ |
      ⟨n, hr, hv, hab, hn, hs⟩ <;> rw [hs] at h <;> cases h
    exact ⟨n, rfl, hr, hv, hab, hn⟩
  · cases f

/-! ## The request an edge executes -/

/-- A request given as bits is executed as decoded, on the state the host's side of the edge leaves
(R37, R81; log 1, 7, 20). -/
theorem step_of_bits {s : State} {op : BitVec 1} {a b : Word} {rest : List Drive}
    (hp : s.pending = ⟨false, true, op, .bits a, .bits b⟩ :: rest) :
    step s = exec (decodeRequest (packRequest op a b)) { s with
      pending := rest
      responses := s.responses ++ s.presented.toList
      earlyRequest := s.earlyRequest || !s.resetSeen } := by
  have hd := nextDrive_of_pending hp
  have hin : s.edgeInput = .request (packRequest op a b) := by
    rw [State.edgeInput, hd]
    rfl
  have hat : s.atEdge = { s with
      pending := rest
      responses := s.responses ++ s.presented.toList
      earlyRequest := s.earlyRequest || !s.resetSeen } := by
    simp [State.atEdge, State.sample, hd, hp]
  rw [step, State.clockEdge, hin, hat]

/-- What the decoder accepts is a request word, decoded by its fields (R81). -/
theorem decodeRequest_of_decode {w : Nat} {i : Instr} (h : decode w = .ok i) :
    requestWordFits w = true ∧ decodeRequest (requestOfNat w) = i := by
  unfold decode at h
  split at h
  · exact ⟨‹_›, Except.ok.inj h⟩
  · cases h

/-- Settles O36: the word on the pins decodes to the request executed. -/
theorem stepRunsDecodedRequest : Obligations.StepRunsDecodedRequest := by
  intro s op a b rest i hp hi
  have hdec := (decodeRequest_of_decode hi).2
  rw [requestOfNat_toNat] at hdec
  rw [step_of_bits hp, hdec]

/-- Settles O6: presenting a word puts its fields on the pins. -/
theorem presentedTableWordRuns : Obligations.PresentedTableWordRuns := by
  intro s nbits w i h
  unfold decodeTableWord at h
  split at h <;> cases h
  obtain ⟨hfits, hdec⟩ := decodeRequest_of_decode ‹_›
  have hw : s.withFetchWord nbits w = s.present (requestOfNat (tableBits nbits w)) := if_pos hfits
  rw [hw, step_of_bits rfl, packRequest_fields, hdec]
  rfl

/-- Every instruction completes and enters its value (R110, R151, R152). -/
theorem exec_eq_accept (i : Instr) (s : State) :
    exec i s = .next (s.accept (addsub Config.qnanT i.op i.a i.b)) := by
  cases i with
  | add a b => rfl
  | sub a b => rfl

/-- Settles O49: the value that enters is a function of the request's fields. -/
theorem resultDependsOnRequestAlone : Obligations.ResultDependsOnRequestAlone := fun i s s' =>
  ⟨_, _, exec_eq_accept i s, exec_eq_accept i s', rfl, rfl⟩

/-! ## The shift -/

theorem Stage.response_eq_some {st : Stage} {r : Word} (h : st.response = some r) :
    st = ⟨true, r⟩ := by
  obtain ⟨v, w⟩ := st
  cases v with
  | true => exact congrArg (Stage.mk true) (Option.some.inj h)
  | false => cases h

theorem stage1_of_stages {s : State} {st : Stage} {l : List Stage} (h : s.stages = st :: l) :
    s.stage1 = st :=
  (List.cons.inj h).1

/-- `stage[k] <- stage[k-1]` for `k = 2 .. L` (R38). -/
theorem step_stage? {s s' : State} (hr : s.nextDrive.rst = false) (h : step s = .next s') {k : Nat}
    (h1 : 1 ≤ k) (hk : k < s.latency) : s'.stage? (k + 1) = s.stage? k := by
  obtain ⟨st, hst, -, -⟩ := step_stages hr h
  obtain ⟨j, rfl⟩ := Nat.exists_eq_add_of_le' h1
  have hj : j < s.stages.dropLast.length := by
    rw [List.length_dropLast, State.stages_length]
    omega
  change s'.stages[j + 1]? = s.stages[j]?
  rw [hst, List.getElem?_cons_succ, List.getElem?_eq_getElem hj, List.getElem_dropLast,
    List.getElem?_eq_getElem]

/-- Over edges without reset a stage's content moves one place an edge (R36, R38). -/
theorem run_stage? {j k : Nat} {s t : State} (hn : s.NoReset j) (h : runEdges j s = .next t)
    (h1 : 1 ≤ k) (hk : k + j ≤ s.latency) : t.stage? (k + j) = s.stage? k := by
  induction j generalizing s k with
  | zero =>
    rw [runEdges_zero] at h
    cases h
    rfl
  | succ j ih =>
    obtain ⟨s', hs, ht⟩ := runEdges_succ_eq_next.mp h
    have hlat := step_latency hs
    calc t.stage? (k + (j + 1)) = t.stage? (k + 1 + j) := by rw [Nat.add_right_comm, Nat.add_assoc]
      _ = s'.stage? (k + 1) := ih (hn.of_step hs) ht (by omega) (by omega)
      _ = s.stage? k := step_stage? hn.nextDrive hs h1 (by omega)

/-- Settles O39: `stage[L]` is the last of the list of stages. -/
theorem outputsShowLastStage : Obligations.OutputsShowLastStage := by
  intro s
  change s.stages[s.stages.length - 1]? = some s.lastStage
  rw [← List.getLast?_eq_getElem?, s.lastStage_eq, List.getLast?_eq_some_getLast]

/-- Settles O38: the shift of an edge without reset. -/
theorem edgeUpdatesPipeline : Obligations.EdgeUpdatesPipeline := by
  intro s s' hr h
  obtain ⟨st, hst, hvalid, hres⟩ := step_stages hr h
  refine ⟨by rw [stage1_of_stages hst, hvalid], fun a b hv ha hb => ?_, step_latency h,
    fun k => step_stage? hr h⟩
  rw [acceptedResult_of_request hr hv ha hb] at hres
  rw [stage1_of_stages hst, Stage.response_eq_some hres]

/-- Settles O44: the accepted request's value moves from `stage[1]` to `stage[L]`, the outputs. -/
theorem responseAppearsAfterLatency : Obligations.ResponseAppearsAfterLatency := by
  intro s s1 s2 req hin hs hn hrun
  have hr : s.nextDrive.rst = false := by
    rcases edgeInput_cases s with ⟨he, -⟩ | ⟨-, hr, -⟩ | ⟨a, b, -, hr, -⟩ | ⟨n, -, hr, -⟩
    · rw [hin] at he
      cases he
    all_goals exact hr
  obtain ⟨st, hst, -, hres⟩ := step_stages hr hs
  rw [State.acceptedResult, hin] at hres
  have hpos : 1 + (s.latency - 1) = s.latency := Nat.add_sub_cancel' (Nat.le_add_left 1 _)
  have hlat1 : s1.latency = s.latency := step_latency hs
  have hlat2 : s2.latency = s.latency := (latencyIsFixed _ _ _ hrun).trans hlat1
  have hmove : s2.stage? (1 + (s.latency - 1)) = s1.stage? 1 :=
    run_stage? hn hrun (le_refl 1) (by omega)
  have hfirst : s1.stage? 1 = some s1.stage1 := rfl
  rw [hpos, ← hlat2, outputsShowLastStage, hfirst, stage1_of_stages hst,
    Stage.response_eq_some hres] at hmove
  exact Stage.mk.inj (Option.some.inj hmove)

/-! ## Acceptance and reset -/

/-- An idle edge takes nothing from the pins, whatever they hold (R37). -/
theorem step_of_idle_pending (s : State) {d : Drive} (rest : List Drive) (hr : d.rst = false)
    (hv : d.inValid = false) :
    step { s with pending := d :: rest } = .next ({ s.sample with pending := rest }).idleEdge := by
  have hat : ({ s with pending := d :: rest } : State).atEdge =
      { s.sample with pending := rest } := by
    simp [State.atEdge, State.sample, State.nextDrive, State.presented, State.outValid,
      State.outResult, State.lastStage, hr, hv]
  rw [step_of_idle (s := { s with pending := d :: rest }) hr hv, hat]

/-- Settles O37: `stage[1]` is valid after an accepted request alone, and two idle edges lead to the
same state, whatever the other pins hold. -/
theorem acceptanceNeedsValidAndNoReset : Obligations.AcceptanceNeedsValidAndNoReset := by
  refine ⟨fun s s' h => ?_, fun s op a b rest => ?_, fun s d d' rest hr hr' hv hv' => ?_⟩
  · rcases step_next_cases h with ⟨hr, rfl⟩ | ⟨hr, hv, rfl⟩ | ⟨a, b, hr, hv, -, -, rfl⟩
    · simp [hr]
    · simp [hv]
    · simp [hr, hv]
  · exact ⟨_, step_of_request (a := a) (b := b) rfl rfl rfl rfl, rfl⟩
  · refine ⟨_, _, step_of_idle_pending s rest hr hv, step_of_idle_pending s rest hr' hv',
      fun k u u' hu hu' => ?_⟩
    have huu : u = u' := Host.Outcome.next.inj (hu.symm.trans hu')
    exact ⟨by rw [huu], by rw [huu]⟩

/-- Settles O41: a reset edge and the reset state both hold `L` stages without a response. -/
theorem resetStateIsEmpty : Obligations.ResetStateIsEmpty := by
  refine ⟨State.reset_empty, State.reset_empty.outValid, State.reset_latency,
    State.powerOn_latency, fun s d rest hl hr => ⟨_, step_of_reset hr, ?_⟩⟩
  rw [State.visible, State.visible, State.resetEdge_stages, State.reset_stages,
    drawnStages_response, drawnStages_response]
  exact congrArg (List.replicate · none) hl

end Sys2Proof.Machine
end

section
/-! PROOFS. The response stream over an edge and over a run, and the launch of the block (10_state.md R40, R66; 70_reset_and_hazards.md R192, R195, R200). -/

namespace Sys2Proof.Machine

/-! ## One edge -/

/-- The stream depends on the stages and the responses sampled alone. -/
theorem stream_congr {s t : State} (hst : s.stages = t.stages) (hre : s.responses = t.responses) :
    s.stream = t.stream := by
  rw [State.stream, State.stream, State.inFlight, State.inFlight, hst, hre]

/-- An edge without reset adds the accepted request's value to the stream (R66). -/
theorem step_stream {s s' : State} (hl : s.resetSeen = true) (hr : s.nextDrive.rst = false)
    (h : step s = .next s') : s'.stream = s.stream ++ s.acceptedResult.toList := by
  obtain ⟨st, hst, -, hres⟩ := step_stages hr h
  calc s'.stream = (s.atEdge.shift st).stream := stream_congr hst (step_hostSide h).2.1
    _ = s.stream ++ st.response.toList := State.shift_stream hl st
    _ = s.stream ++ s.acceptedResult.toList := by rw [hres]

/-- With nothing in flight the stream is what has been presented. -/
theorem State.Empty.stream {s : State} (h : s.Empty) : s.stream = s.responses := by
  rw [State.stream, h.inFlight, List.append_nil]

/-- A reset edge leaves no stage valid (R190). -/
theorem step_empty {s s' : State} (hr : s.nextDrive.rst = true) (h : step s = .next s') :
    s'.Empty := by
  rw [step_of_reset hr] at h
  cases h
  exact s.atEdge.resetEdge_empty

/-- Before the first reset edge the host takes no response (R195). -/
theorem step_responses_beforeReset {s s' : State} (hrs : s.resetSeen = false)
    (h : step s = .next s') : s'.responses = s.responses := by
  rw [(step_hostSide h).2.1, State.atEdge_responses, State.presented_beforeReset hrs,
    Option.toList_none, List.append_nil]

/-- Settles O45: the stream over an edge, on both sides of the first reset edge. -/
theorem edgeExtendsResponseStream : Obligations.EdgeExtendsResponseStream := by
  intro s s' h
  refine ⟨fun hl hr => step_stream hl hr h, fun hl hr => ?_, fun hrs => ?_⟩
  · rw [(step_empty hr h).stream, (step_hostSide h).2.1, State.atEdge_responses,
      State.presented_launched hl, State.lastStage_response]
    cases s.outValid <;> rfl
  · have hre := step_responses_beforeReset hrs h
    exact ⟨hre, fun hr => (step_empty hr h).stream.trans hre⟩

/-! ## Requests without feedback -/

theorem literalResults_append (ds es : List Drive) :
    literalResults (ds ++ es) = literalResults ds ++ literalResults es :=
  List.filterMap_append

/-- An edge whose operands are bits completes and accepts the request driven there, if any (R37). -/
theorem step_of_literal {s : State} (hr : s.nextDrive.rst = false)
    (hlit : LiteralDrives (s.pending.take 1)) :
    ∃ s', step s = .next s' ∧ s.acceptedResult.toList = literalResults (s.pending.take 1) := by
  cases hp : s.pending with
  | nil =>
    have hv : s.nextDrive.inValid = false := by rw [State.nextDrive, hp]; rfl
    exact ⟨_, step_of_idle hr hv, by rw [acceptedResult_of_idle hr hv]; rfl⟩
  | cons d rest =>
    have hd := nextDrive_of_pending hp
    obtain ⟨a, b, ha, hb⟩ := hlit d (by simp [hp])
    cases hv : d.inValid with
    | false =>
      have hv' : s.nextDrive.inValid = false := by rw [hd, hv]
      exact ⟨_, step_of_idle hr hv',
        by rw [acceptedResult_of_idle hr hv']; simp [literalResults, hv]⟩
    | true =>
      have hv' : s.nextDrive.inValid = true := by rw [hd, hv]
      have ha' : s.nextDrive.inA.resolve s.atEdge = .ok a := by rw [hd, ha]; rfl
      have hb' : s.nextDrive.inB.resolve s.atEdge = .ok b := by rw [hd, hb]; rfl
      exact ⟨_, step_of_request hr hv' ha' hb',
        by rw [acceptedResult_of_request hr hv' ha' hb', hd]; simp [literalResults, hv, ha, hb]⟩

/-- Settles O46, by induction on the number of edges: each adds its own request to the stream. -/
theorem responsesFollowRequestsInOrder : Obligations.ResponsesFollowRequestsInOrder := by
  intro k
  induction k with
  | zero => exact fun s _ _ _ => ⟨s, runEdges_zero s, by simp [literalResults], rfl⟩
  | succ k ih =>
    intro s hl hn hlit
    rw [take_succ_pending] at hlit ⊢
    obtain ⟨s', hs, hacc⟩ := step_of_literal hn.nextDrive fun d hd =>
      hlit d (List.mem_append_left _ hd)
    have hp := (step_hostSide hs).1
    obtain ⟨t, hrun, hstream, hpend⟩ := ih s' (hl.of_step hs) (hn.of_step hs) fun d hd =>
      hlit d (List.mem_append_right _ (by rwa [hp] at hd))
    refine ⟨t, by rw [runEdges_succ_of_step hs, hrun], ?_, ?_⟩
    · rw [hstream, step_stream hl.resetSeen hn.nextDrive hs, hacc, hp, literalResults_append,
        List.append_assoc]
    · rw [hpend, hp, State.atEdge_pending, List.drop_tail]

/-! ## Draining -/

/-- The first `j` stages hold nothing. -/
def State.FrontClear (s : State) (j : Nat) : Prop := ∀ st ∈ s.stages.take j, st.valid = false

/-- An idle edge lengthens the clear front by one stage (R38). -/
theorem State.FrontClear.of_idle {s s' : State} {j : Nat} (hf : s.FrontClear j)
    (hr : s.nextDrive.rst = false) (hv : s.nextDrive.inValid = false) (h : step s = .next s') :
    s'.FrontClear (j + 1) := by
  obtain ⟨new, hst, hvalid, -⟩ := step_stages hr h
  intro st hmem
  rw [hst, List.take_succ_cons] at hmem
  rcases List.mem_cons.mp hmem with rfl | hmem
  · rw [hvalid, hv]
  · exact hf st (((List.dropLast_prefix _).take j).subset hmem)

theorem State.FrontClear.empty {s : State} {j : Nat} (hf : s.FrontClear j) (hj : s.latency ≤ j) :
    s.Empty := fun st hst => hf st (by rwa [List.take_of_length_le hj])

theorem State.Quiet.nextDrive {s : State} (hq : s.Quiet) :
    s.nextDrive.rst = false ∧ s.nextDrive.inValid = false := by
  rcases nextDrive_cases s 0 with hd | hd
  · exact hq _ (List.mem_of_mem_take hd)
  · rw [hd]
    exact ⟨rfl, rfl⟩

theorem State.Quiet.of_step {s s' : State} (hq : s.Quiet) (h : step s = .next s') : s'.Quiet := by
  intro d hd
  rw [(step_hostSide h).1, State.atEdge_pending] at hd
  exact hq d (List.mem_of_mem_tail hd)

/-- A quiet host's edges complete, leave the stream as it is and clear one stage each (R38, R40). -/
theorem run_quiet (k : Nat) {s : State} {j : Nat} (hl : s.Launched) (hq : s.Quiet)
    (hf : s.FrontClear j) :
    ∃ t, runEdges k s = .next t ∧ t.stream = s.stream ∧ t.FrontClear (j + k) := by
  induction k generalizing s j with
  | zero => exact ⟨s, runEdges_zero s, rfl, hf⟩
  | succ k ih =>
    obtain ⟨hr, hv⟩ := hq.nextDrive
    have hs := step_of_idle hr hv
    obtain ⟨t, hrun, hstream, hclear⟩ := ih (hl.of_step hs) (hq.of_step hs) (hf.of_idle hr hv hs)
    refine ⟨t, by rw [runEdges_succ_of_step hs, hrun], ?_, by rwa [Nat.add_right_comm] at hclear⟩
    rw [hstream, step_stream hl.resetSeen hr hs, acceptedResult_of_idle hr hv, Option.toList_none,
      List.append_nil]

/-- Settles O47: after `L` idle edges every stage is in the clear front, so the stream is what has
been sampled. -/
theorem quietEdgesDrainThePipeline : Obligations.QuietEdgesDrainThePipeline := by
  intro s hl hq
  obtain ⟨t, hrun, hstream, hclear⟩ :=
    run_quiet s.latency (j := 0) hl hq (by simp [State.FrontClear])
  have hempty : t.Empty := hclear.empty (by rw [latencyIsFixed _ _ _ hrun, Nat.zero_add])
  exact ⟨t, hrun, by rw [← hempty.stream, hstream], hempty⟩

/-! ## The launch -/

/-- An idle edge before the first reset edge takes nothing and accepts nothing (R195). -/
theorem State.BeforeLaunch.of_idle {s s' : State} (hb : s.BeforeLaunch)
    (hr : s.nextDrive.rst = false) (hv : s.nextDrive.inValid = false) (h : step s = .next s') :
    s'.BeforeLaunch := by
  obtain ⟨-, -, hrs, her⟩ := step_hostSide h
  refine ⟨?_, ?_, (step_responses_beforeReset hb.noReset h).trans hb.noResponse⟩
  · rw [hrs, State.atEdge_resetSeen, hb.noReset, hr, Bool.or_false]
  · rw [her, State.atEdge_earlyRequest, hb.noEarlyRequest, hv, Bool.and_false, Bool.or_false]

/-- The first reset edge launches the block (R195). -/
theorem State.BeforeLaunch.of_reset {s s' : State} (hb : s.BeforeLaunch)
    (hr : s.nextDrive.rst = true) (h : step s = .next s') : s'.Launched := by
  obtain ⟨-, -, hrs, her⟩ := step_hostSide h
  refine ⟨?_, ?_⟩
  · rw [hrs, State.atEdge_resetSeen, hr, Bool.or_true]
  · simp [her, hb.noEarlyRequest, hr]

/-- Any number of idle edges before the first reset edge (R195). -/
theorem run_idles_beforeLaunch {idles rest : List Drive} {s : State} (hb : s.BeforeLaunch)
    (hp : s.pending = idles ++ rest) (hi : ∀ d ∈ idles, d.rst = false ∧ d.inValid = false) :
    ∃ t, runEdges idles.length s = .next t ∧ t.BeforeLaunch ∧ t.pending = rest := by
  induction idles generalizing s with
  | nil => exact ⟨s, runEdges_zero s, hb, hp⟩
  | cons d idles ih =>
    obtain ⟨hd, hidles⟩ := List.forall_mem_cons.mp hi
    rw [← nextDrive_of_pending hp] at hd
    have hs := step_of_idle hd.1 hd.2
    have hp' : s.atEdge.idleEdge.pending = idles ++ rest := by
      rw [State.idleEdge_pending, State.atEdge_pending, hp]
      rfl
    rw [List.length_cons, runEdges_succ_of_step hs]
    exact ih (hb.of_idle hd.1 hd.2 hs) hp' hidles

/-- Settles O58: the idle edges keep the block before its launch, and the reset edge launches it. -/
theorem resetEdgeLaunchesFromPowerOn : Obligations.ResetEdgeLaunchesFromPowerOn := by
  refine ⟨⟨rfl, rfl, rfl⟩, ⟨rfl, rfl⟩, fun s idles d rest hb hi hr => ?_⟩
  obtain ⟨t, hrun, hbt, hp⟩ := run_idles_beforeLaunch (idles := idles) (rest := d :: rest)
    (s := { s with pending := idles ++ d :: rest })
    ⟨hb.noReset, hb.noEarlyRequest, hb.noResponse⟩ rfl hi
  rw [← nextDrive_of_pending hp] at hr
  have ht := step_of_reset hr
  have hempty := step_empty hr ht
  refine ⟨_, ?_, hbt.of_reset hr ht, hempty, hempty.outValid,
    (step_responses_beforeReset hbt.noReset ht).trans hbt.noResponse, ?_⟩
  · rw [runEdges_add hrun, runEdges_succ_of_step ht, runEdges_zero]
  · rw [State.resetEdge_pending, State.atEdge_pending, hp, List.tail_cons]

end Sys2Proof.Machine
end

section
/-! PROOFS. The host's view of a script keeps count of the responses the block presents, so what a legal script feeds back exists (10_state.md R40; 30_encoding.md R96; 70_reset_and_hazards.md R192, R195, R198). -/

namespace Sys2Proof.Machine

/-! ## Counting responses in the block and in the host's view -/

/-- How many responses the host has once `n + 1` more edges have passed without reset, of those now
presented or in flight. Before the first reset edge it takes none from the stages (R195). -/
def State.takenBy (s : State) (n : Nat) : Nat :=
  s.responses.length +
    if s.resetSeen then (s.stages.reverse.take (n + 1)).countP Stage.valid else 0

/-- The same count in the host's view: a request accepted at edge `t` has its response taken at edge
`t + L` (R40). -/
def HostView.dueBy (L : Nat) (v : HostView) (n : Nat) : Nat :=
  v.presented + v.inFlight.countP fun t => decide (t + L ≤ v.edge + n)

theorem State.stages_reverse (s : State) :
    s.stages.reverse = s.lastStage :: s.stages.dropLast.reverse := by
  conv_lhs => rw [s.stages_eq]
  rw [List.reverse_append, List.reverse_singleton, List.singleton_append]

/-- The next edge takes the response of the last stage, the edges after it those of the others. -/
theorem takenBy_eq (s : State) (n : Nat) :
    s.takenBy n = s.atEdge.responses.length +
      if s.resetSeen then (s.stages.dropLast.reverse.take n).countP Stage.valid else 0 := by
  have hlast : s.presented.toList.length =
      if s.resetSeen then (if s.lastStage.valid then 1 else 0) else 0 := by
    unfold State.presented State.outValid
    cases s.resetSeen <;> cases s.lastStage.valid <;> rfl
  rw [State.takenBy, State.stages_reverse, List.take_succ_cons, List.countP_cons,
    State.atEdge_responses, List.length_append, hlast]
  cases s.resetSeen with
  | false => rfl
  | true => simp only [if_true]; omega

theorem atEdge_responses_length (s : State) : s.atEdge.responses.length = s.takenBy 0 := by
  simp [takenBy_eq]

/-- An edge without reset brings every response one edge nearer; an accepted request adds one that
is due after `L` more edges (R38, R40). -/
theorem takenBy_of_step {s s' : State} (hr : s.nextDrive.rst = false) (h : step s = .next s')
    (n : Nat) : s'.takenBy n = s.takenBy (n + 1) +
      if s.resetSeen = true ∧ s.nextDrive.inValid = true ∧ s.latency ≤ n + 1 then 1 else 0 := by
  obtain ⟨-, hre, hrs, -⟩ := step_hostSide h
  obtain ⟨new, hst, hvalid, -⟩ := step_stages hr h
  have hlen : s.stages.dropLast.reverse.length + 1 = s.latency := by
    rw [List.length_reverse, List.length_dropLast, State.stages_length]
    exact Nat.sub_add_cancel (Nat.le_add_left 1 _)
  rw [takenBy_eq s, State.takenBy, hre, hrs, State.atEdge_resetSeen, hr, Bool.or_false, hst,
    List.reverse_cons, List.take_append, List.countP_append]
  generalize s.stages.dropLast.reverse = older at hlen ⊢
  have hnew : ([new].take (n + 1 - older.length)).countP Stage.valid =
      if s.nextDrive.inValid = true ∧ s.latency ≤ n + 1 then 1 else 0 := by
    rw [← hvalid, ← hlen]
    rcases Nat.lt_or_ge n older.length with hn | hn
    · rw [Nat.sub_eq_zero_of_le hn, List.take_zero, List.countP_nil, if_neg (by omega)]
    · rw [List.take_of_length_le (by simp; omega), List.countP_singleton]
      simp [hn]
  rw [hnew]
  cases s.resetSeen <;> simp [Nat.add_assoc]

theorem takenBy_of_empty {s : State} (h : s.Empty) (n : Nat) :
    s.takenBy n = s.responses.length := by
  have hc : (s.stages.reverse.take (n + 1)).countP Stage.valid = 0 :=
    List.countP_eq_zero.mpr fun st hst => by
      simp [h st (List.mem_reverse.mp (List.mem_of_mem_take hst))]
  rw [State.takenBy, hc, ite_self, Nat.add_zero]

/-- Counting the arrivals of an edge moves requests from those in flight to those presented. -/
theorem dueBy_arrive (L : Nat) (v : HostView) (n : Nat) :
    (v.arrive L).dueBy L n = v.dueBy L n := by
  have harrived : (v.inFlight.filter fun t => decide (t + L ≤ v.edge)).countP
      (fun t => decide (t + L ≤ v.edge + n)) =
      (v.inFlight.filter fun t => decide (t + L ≤ v.edge)).length :=
    List.countP_eq_length.mpr fun t ht => by
      have := of_decide_eq_true (List.mem_filter.mp ht).2
      exact decide_eq_true (by omega)
  have hwaiting : (v.inFlight.filter fun t => !decide (t + L ≤ v.edge)) =
      v.inFlight.filter fun t => decide (v.edge < t + L) :=
    List.filter_congr fun t _ => by rw [← decide_not]; exact decide_eq_decide.mpr Nat.not_le
  rw [HostView.dueBy, HostView.dueBy,
    List.countP_eq_countP_filter_add v.inFlight _ fun t => decide (t + L ≤ v.edge)]
  rw [harrived, hwaiting, ← Nat.add_assoc]
  rfl

theorem HostView.arrive_presented (L : Nat) (v : HostView) :
    (v.arrive L).presented = v.dueBy L 0 := by
  rw [HostView.arrive, HostView.dueBy, Nat.add_zero, List.countP_eq_length_filter]

/-- An edge more in the host's view. -/
theorem dueBy_edge (L : Nat) (v : HostView) (n : Nat) :
    ({ v with edge := v.edge + 1 } : HostView).dueBy L n = v.dueBy L (n + 1) := by
  simp only [HostView.dueBy, Nat.add_assoc, Nat.add_comm 1]

/-- A request accepted at the edge of the view is due after `L` more edges. -/
theorem dueBy_request (L : Nat) (v : HostView) (n : Nat) :
    ({ v with edge := v.edge + 1, inFlight := v.inFlight ++ [v.edge] } : HostView).dueBy L n =
      v.dueBy L (n + 1) + if L ≤ n + 1 then 1 else 0 := by
  simp only [HostView.dueBy, List.countP_append, List.countP_singleton, decide_eq_true_eq,
    Nat.add_assoc, Nat.add_comm 1, Nat.add_le_add_iff_left]

/-! ## The host's view is right -/

/-- The host's view before an edge agrees with the block: the launch, and the responses taken and to
come, edge by edge. -/
structure State.Tracks (s : State) (L : Nat) (v : HostView) : Prop where
  latency : s.latency = L
  resetSeen : s.resetSeen = v.resetSeen
  noEarlyRequest : s.earlyRequest = false
  counts : ∀ n, v.dueBy L n = s.takenBy n

theorem State.Tracks.arrive {s : State} {L : Nat} {v : HostView} (ht : s.Tracks L v) :
    s.Tracks L (v.arrive L) :=
  ⟨ht.latency, ht.resetSeen, ht.noEarlyRequest, fun n => (dueBy_arrive L v n).trans (ht.counts n)⟩

/-- With the arrivals of an edge counted, the view has the number of responses the host can feed
back at it (R198). -/
theorem State.Tracks.arrive_presented {s : State} {L : Nat} {v : HostView} (ht : s.Tracks L v) :
    (v.arrive L).presented = s.atEdge.responses.length := by
  rw [HostView.arrive_presented, ht.counts, atEdge_responses_length]

theorem State.Tracks.of_idle {s s' : State} {L : Nat} {v : HostView} (ht : s.Tracks L v)
    (hr : s.nextDrive.rst = false) (hv : s.nextDrive.inValid = false) (h : step s = .next s') :
    s'.Tracks L { v with edge := v.edge + 1 } := by
  obtain ⟨-, -, hrs, her⟩ := step_hostSide h
  refine ⟨(step_latency h).trans ht.latency, ?_, ?_, fun n => ?_⟩
  · rw [hrs, State.atEdge_resetSeen, hr, Bool.or_false, ht.resetSeen]
  · rw [her, State.atEdge_earlyRequest, ht.noEarlyRequest, hv, Bool.and_false, Bool.or_false]
  · rw [dueBy_edge, ht.counts, takenBy_of_step hr h, if_neg (by simp [hv])]
    rfl

/-- A request after the first reset edge (R195) enters the view with its acceptance edge. -/
theorem State.Tracks.of_request {s s' : State} {L : Nat} {v : HostView} (ht : s.Tracks L v)
    (hseen : v.resetSeen = true) (hr : s.nextDrive.rst = false) (hv : s.nextDrive.inValid = true)
    (h : step s = .next s') :
    s'.Tracks L { v with edge := v.edge + 1, inFlight := v.inFlight ++ [v.edge] } := by
  have hrs := ht.resetSeen.trans hseen
  have hl := State.Launched.of_step ⟨hrs, ht.noEarlyRequest⟩ h
  refine ⟨(step_latency h).trans ht.latency, hl.resetSeen.trans hseen.symm, hl.noEarlyRequest,
    fun n => ?_⟩
  rw [dueBy_request, ht.counts, takenBy_of_step hr h, ht.latency]
  simp only [hrs, hv, true_and]

/-- A reset discards what is in flight (R192): of the view with arrivals counted only the number
presented is left. -/
theorem State.Tracks.of_reset {s s' : State} {L : Nat} {v : HostView} (ht : s.Tracks L v)
    (hr : s.nextDrive.rst = true) (h : step s = .next s') :
    s'.Tracks L ((v.arrive L).after .reset) := by
  obtain ⟨-, hre, hrs, her⟩ := step_hostSide h
  refine ⟨(step_latency h).trans ht.latency, ?_, ?_, fun n => ?_⟩
  · rw [hrs, State.atEdge_resetSeen, hr, Bool.or_true]
    rfl
  · rw [her, State.atEdge_earlyRequest, ht.noEarlyRequest, hr]
    simp
  · rw [takenBy_of_empty (step_empty hr h), hre, ← ht.arrive_presented]
    rfl

/-- The view a script starts with (R195). -/
theorem State.AtStart.tracks {s : State} (h : s.AtStart) (script : List ScriptLine) :
    (s.load script).Tracks s.latency ⟨0, s.resetSeen, 0, []⟩ := by
  rcases h with ⟨hl, hempty, hre⟩ | hb
  · refine ⟨rfl, rfl, hl.noEarlyRequest, fun n => ?_⟩
    rw [takenBy_of_empty (s := s.load script) hempty, State.load_responses, hre]
    rfl
  · refine ⟨rfl, rfl, hb.noEarlyRequest, fun n => ?_⟩
    simp [HostView.dueBy, State.takenBy, hb.noReset, hb.noResponse]

/-! ## Legal scripts -/

/-- Every number of edges can be run, and none accepts a request before the first reset edge. -/
def State.NeverRefused (s : State) : Prop :=
  ∀ k : Nat, ∃ t, runEdges k s = .next t ∧ t.earlyRequest = false

theorem State.NeverRefused.before_step {s s' : State} (he : s.earlyRequest = false)
    (h : step s = .next s') (hn : s'.NeverRefused) : s.NeverRefused
  | 0 => ⟨s, runEdges_zero s, he⟩
  | k + 1 => by
    rw [runEdges_succ_of_step h]
    exact hn k

/-- With nothing left to drive the host idles for ever (log 1). -/
theorem neverRefused_of_quiet {s : State} {L : Nat} {v : HostView} (ht : s.Tracks L v)
    (hq : s.Quiet) : s.NeverRefused := by
  intro k
  induction k generalizing s v with
  | zero => exact ⟨s, runEdges_zero s, ht.noEarlyRequest⟩
  | succ k ih =>
    obtain ⟨hr, hv⟩ := hq.nextDrive
    have hs := step_of_idle hr hv
    rw [runEdges_succ_of_step hs]
    exact ih (ht.of_idle hr hv hs) (hq.of_step hs)

/-- The edges of an `IDLE n` line (R97), before what the host drives after them. -/
theorem neverRefused_of_idles {n L : Nat} {rest : List Drive} {s : State} {v : HostView}
    (ht : s.Tracks L v) (hp : s.pending = idleDrives n v.edge ++ rest)
    (hrest : ∀ t : State, t.Tracks L (v.after (.idle n)) → t.pending = rest → t.NeverRefused) :
    s.NeverRefused := by
  induction n generalizing s v with
  | zero => exact hrest s ht hp
  | succ n ih =>
    have hd : s.nextDrive = idleDrive v.edge := nextDrive_of_pending hp
    have hr : s.nextDrive.rst = false := by rw [hd]; rfl
    have hv : s.nextDrive.inValid = false := by rw [hd]; rfl
    have hs := step_of_idle hr hv
    refine .before_step ht.noEarlyRequest hs (ih (ht.of_idle hr hv hs) ?_ fun t htt => hrest t ?_)
    · rw [State.idleEdge_pending, State.atEdge_pending, hp]
      rfl
    · simpa only [HostView.after, Nat.add_assoc, Nat.add_comm 1] using htt

/-- A legal operand is a word the host has (R96, R198). -/
theorem Operand.resolve_of_legal {o : Operand} {s : State} (h : o.legal s.responses.length = true) :
    ∃ w, o.source.resolve s = .ok w := by
  cases o with
  | response n =>
    obtain ⟨h1, hn⟩ : 1 ≤ n ∧ n ≤ s.responses.length := by simpa [Operand.legal] using h
    obtain ⟨m, rfl⟩ := Nat.exists_eq_add_of_le' h1
    exact ⟨_, Source.resolve_response (List.getElem?_eq_getElem hn)⟩
  | hex _ | named _ | qnan | snan => exact ⟨_, rfl⟩

/-- A legal request completes, and the view follows it (R96, R195, R198). -/
theorem State.Tracks.step_request {s : State} {L : Nat} {v : HostView} {op : BitVec 1}
    {a b : Operand} {rest : List Drive} (ht : s.Tracks L v)
    (hp : s.pending = requestDrive op a b :: rest)
    (hlegal : (Line.add a b).legal v.resetSeen (v.arrive L).presented = true) :
    ∃ s', step s = .next s' ∧ s'.pending = rest ∧ s'.Tracks L ((v.arrive L).after (.add a b)) := by
  simp only [Line.legal, Bool.and_eq_true, ht.arrive_presented] at hlegal
  obtain ⟨⟨hseen, ha⟩, hb⟩ := hlegal
  have hd := nextDrive_of_pending hp
  have hr : s.nextDrive.rst = false := by rw [hd]; rfl
  have hv : s.nextDrive.inValid = true := by rw [hd]; rfl
  obtain ⟨x, hx⟩ := Operand.resolve_of_legal ha
  obtain ⟨y, hy⟩ := Operand.resolve_of_legal hb
  have hs := step_of_request hr hv (by rw [hd]; exact hx) (by rw [hd]; exact hy)
  exact ⟨_, hs, by rw [State.accept_pending, State.atEdge_pending, hp, List.tail_cons],
    ht.arrive.of_request hseen hr hv hs⟩

/-- From a state the host's view tracks, a script that is legal from that view is never refused. -/
theorem neverRefused_of_legal {L : Nat} {script : List ScriptLine} {s : State} {v : HostView}
    (ht : s.Tracks L v) (hp : s.pending = scriptDrives v.edge script)
    (hlegal : scriptLegalFrom L v script = true) : s.NeverRefused := by
  induction script generalizing s v with
  | nil => exact neverRefused_of_quiet ht fun d hd => by rw [hp] at hd; cases hd
  | cons l ls ih =>
    simp only [scriptLegalFrom, Bool.and_eq_true] at hlegal
    obtain ⟨⟨-, hline⟩, hrest⟩ := hlegal
    have hcons : s.pending = l.line.drives v.edge ++ scriptDrives (v.edge + l.line.edges) ls := hp
    cases hl : l.line with
    | add a b | sub a b =>
      rw [hl] at hline hrest hcons
      obtain ⟨s', hs, hp', ht'⟩ := ht.step_request hcons hline
      exact .before_step ht.noEarlyRequest hs (ih ht' hp' hrest)
    | idle n =>
      rw [hl] at hrest hcons
      exact neverRefused_of_idles ht.arrive hcons fun t htt hpt => ih htt hpt hrest
    | reset =>
      rw [hl] at hrest hcons
      have hr : s.nextDrive.rst = true := by rw [nextDrive_of_pending hcons]; rfl
      have hs := step_of_reset hr
      have hp' : s.atEdge.resetEdge.pending = scriptDrives (v.edge + 1) ls := by
        rw [State.resetEdge_pending, State.atEdge_pending, hcons]
        rfl
      exact .before_step ht.noEarlyRequest hs (ih (ht.of_reset hr hs) hp' hrest)

/-- Settles O55: the view that `scriptLegal` keeps tracks the block from either kind of start. -/
theorem legalScriptsNeverRefused : Obligations.LegalScriptsNeverRefused :=
  fun _ script hstart hlegal => neverRefused_of_legal (hstart.tracks script) rfl hlegal

end Sys2Proof.Machine
end

section
/-! PROOFS. The two 64-bit limbs of a word (20_memory.md R63). -/

namespace Sys2Proof.Machine

/-- Bit `i` of limb 0 is bit `i` of the word (R63). -/
theorem limb0_getLsbD (x : Word) {i : Nat} (h : i < 64) :
    (limb0 x).getLsbD i = x.getLsbD i := by
  rw [limb0, BitVec.getLsbD_extractLsb', decide_eq_true h, Bool.true_and, Nat.zero_add]

/-- Bit `i` of limb 1 is bit `64 + i` of the word (R63). -/
theorem limb1_getLsbD (x : Word) {i : Nat} (h : i < 64) :
    (limb1 x).getLsbD i = x.getLsbD (64 + i) := by
  rw [limb1, BitVec.getLsbD_extractLsb', decide_eq_true h, Bool.true_and]

/-- A word's limbs, limb 0 least significant, are adjacent slices that cover it (R63). -/
@[simp] theorem ofLimbs_limbs (x : Word) : ofLimbs (limb0 x) (limb1 x) = x := by
  have hslices : ofLimbs (limb0 x) (limb1 x) = x.extractLsb' 0 (64 + 64) :=
    BitVec.extractLsb'_append_extractLsb'_eq_extractLsb' rfl
  rw [hslices, BitVec.extractLsb'_eq_self]

/-- Settles O13: the limbs give the word back, and each limb's bits are the word's at its place. -/
theorem limbsHoldTheWord : Obligations.LimbsHoldTheWord :=
  fun x => ⟨ofLimbs_limbs x, fun _ h => ⟨limb0_getLsbD x h, limb1_getLsbD x h⟩⟩

end Sys2Proof.Machine
end

section
/-! PROOFS. The request word: the decoder and the encoder invert each other (30_encoding.md R80 to R83, R93). -/

namespace Sys2Proof.Machine

/-- The numbers below `2 ^ k` are those of the words of `k` bits. It is stated for every width so
that no power of two is evaluated where it is used. -/
theorem lt_two_pow_iff_exists_toNat {k w : Nat} : w < 2 ^ k ↔ ∃ x : BitVec k, x.toNat = w :=
  ⟨fun h => ⟨BitVec.ofNatLT w h, rfl⟩, fun ⟨x, hx⟩ => hx ▸ x.isLt⟩

theorem requestWordFits_toNat (rw : RequestWord) : requestWordFits rw.toNat = true :=
  (requestWordFits_iff _).mpr (lt_two_pow_iff_exists_toNat.mpr ⟨rw, rfl⟩)

/-- Every request word is accepted and read by its fields (R81, R93). -/
theorem decode_toNat (rw : RequestWord) : decode rw.toNat = .ok (decodeRequest rw) := by
  rw [decode, if_pos (requestWordFits_toNat rw), requestOfNat_toNat]

/-- The request of three ports: `op` alone chooses the operation (R81, R83). -/
theorem decodeRequest_packRequest (op : BitVec 1) (a b : Word) :
    decodeRequest (packRequest op a b) = if op = 0#1 then .add a b else .sub a b := by
  rw [decodeRequest, packRequest_op, packRequest_a, packRequest_b]

@[simp] theorem decodeRequest_encode (i : Instr) : decodeRequest (encode i) = i := by
  rw [encode, decodeRequest_packRequest]
  cases i with
  | add a b => rfl
  | sub a b => rfl

/-- The two values of `op` leave nothing undecided (R83, R93). -/
@[simp] theorem encode_decodeRequest (rw : RequestWord) : encode (decodeRequest rw) = rw := by
  have hfields := packRequest_fields rw
  rcases BitVec.eq_zero_or_eq_one (RequestWord.op rw) with hop | hop
  · rw [hop] at hfields
    rw [decodeRequest, if_pos hop]
    exact hfields
  · rw [hop] at hfields
    rw [decodeRequest, if_neg (by rw [hop]; decide)]
    exact hfields

theorem decode_encode (i : Instr) : decode (encode i).toNat = .ok i := by
  rw [decode_toNat, decodeRequest_encode]

/-- A row of at least 257 bits keeps every bit of a request word (log 10). -/
theorem tableBits_toNat {nbits : Nat} (h : 257 ≤ nbits) (rw : RequestWord) :
    tableBits nbits rw.toNat = rw.toNat := by
  rw [tableBits_eq, Nat.mod_eq_of_lt (rw.toNat_lt_twoPow_of_le h)]

theorem decodeTableWord_encode {nbits : Nat} (h : 257 ≤ nbits) (i : Instr) :
    decodeTableWord nbits (encode i).toNat = some i := by
  rw [decodeTableWord, tableBits_toNat h, decode_encode]

/-- Settles O2: a packed request is decoded by the fields it was packed from, and a table row of 257
bits or more cuts none of them. -/
theorem decodeInvertsEncode : Obligations.DecodeInvertsEncode := fun i =>
  ⟨decode_encode i, decodeTableWord_encode (by decide) i, decodeTableWord_encode (by decide) i⟩

/-- No instruction is ill-formed (R92, R93). -/
theorem wellFormed_eq_true (i : Instr) : i.wellFormed = true := by
  cases i with
  | add a b => rfl
  | sub a b => rfl

/-- Settles O3: the instruction is the one decoded from the number as a request word. -/
theorem everyRequestWordIsDefined : Obligations.EveryRequestWordIsDefined := by
  intro w hw
  obtain ⟨rw, rfl⟩ := lt_two_pow_iff_exists_toNat.mp hw
  exact ⟨decodeRequest rw, decode_toNat rw, wellFormed_eq_true _,
    congrArg BitVec.toNat (encode_decodeRequest rw), fun s => ⟨_, exec_eq_accept _ s⟩⟩

/-- `RW[256] = op` as a bit of the number (R81). -/
theorem ofNat_shiftRight_eq_ofBool (w k : Nat) :
    BitVec.ofNat 1 (w >>> k) = BitVec.ofBool (w.testBit k) := by
  apply BitVec.eq_of_getLsbD_eq
  intro i hi
  obtain rfl : i = 0 := by omega
  simp only [BitVec.getLsbD_ofNat, BitVec.getLsbD_ofBool, Nat.testBit_shiftRight, Nat.add_zero,
    Nat.lt_one_iff, decide_true, Bool.true_and]

/-- Settles O4: the fields of `requestOfNat` are the number's, written with quotient and remainder. -/
theorem operationSelectIsBit256 : Obligations.OperationSelectIsBit256 := by
  intro w hw
  have hb : BitVec.ofNat 128 (w % 2 ^ 128) = BitVec.ofNat 128 w :=
    BitVec.eq_of_toNat_eq (by rw [BitVec.toNat_ofNat, BitVec.toNat_ofNat, Nat.mod_mod])
  rw [decode, if_pos ((requestWordFits_iff w).mpr hw), requestOfNat, decodeRequest_packRequest,
    ofNat_shiftRight_eq_ofBool, Nat.shiftRight_eq_div_pow, hb]
  cases w.testBit 256 with
  | false => rfl
  | true => rfl

/-- The number of an instruction's request word decodes to that instruction. -/
theorem decode_of_encode {w : Nat} {i : Instr} (h : (encode i).toNat = w) : decode w = .ok i :=
  h ▸ decode_encode i

/-- Settles O1: each listed word is the request word of the instruction named beside it. -/
theorem listedRequestWordsDecode : Obligations.ListedRequestWordsDecode :=
  ⟨decode_of_encode (by decide), decode_of_encode (by decide), decode_of_encode (by decide),
    decode_of_encode (by decide), decode_of_encode (by decide)⟩

end Sys2Proof.Machine
end

section
/-! PROOFS. The fields and classes of a word, and the values of the named words (30_encoding.md R84 to R89). -/

namespace Sys2Proof.Machine

/-- A word is the word packed from its fields (R84). -/
@[simp] theorem pack_fields (x : Word) : pack (signBit x) (expField x) (trailing x) = x := by
  refine word_ext (signBit_pack _ _ _) ?_ ?_
  · rw [expField_pack, Nat.mod_eq_of_lt (expField_lt x)]
  · rw [trailing_pack, Nat.mod_eq_of_lt (trailing_lt x)]

/-- Fields in their ranges are not cut when they are packed (R84). -/
theorem fields_pack (s : Bool) {E T : Nat} (hE : E < 2 ^ 15) (hT : T < 2 ^ 112) :
    signBit (pack s E T) = s ∧ expField (pack s E T) = E ∧ trailing (pack s E T) = T := by
  rw [expField_pack, trailing_pack, Nat.mod_eq_of_lt hE, Nat.mod_eq_of_lt hT]
  exact ⟨signBit_pack s E T, rfl, rfl⟩

/-- Settles O7: a word is determined by its fields, and fields in range are packed uncut. -/
theorem wordIsItsFields : Obligations.WordIsItsFields :=
  ⟨fun x => ⟨(pack_fields x).symm, toNat_eq_fields x, Nat.le_of_lt_succ (expField_lt x),
      Nat.le_sub_one_of_lt (trailing_lt x), rfl⟩,
    fun s _ _ hE hT => fields_pack s (by omega) (by omega)⟩

/-- The four classes of R88, each with its condition on the fields. -/
theorem classOf_cases (x : Word) :
    (classOf x = .infinity ∧ expField x = 32767 ∧ trailing x = 0) ∨
    (classOf x = .nan ∧ expField x = 32767 ∧ trailing x ≠ 0) ∨
    (classOf x = .e0 ∧ expField x = 0) ∨
    (classOf x = .normal ∧ 1 ≤ expField x ∧ expField x ≤ 32766) := by
  have hlt := expField_lt x
  by_cases hE : expField x = 32767
  · by_cases hT : trailing x = 0
    · exact .inl ⟨by rw [classOf, if_pos hE, if_pos hT], hE, hT⟩
    · exact .inr (.inl ⟨by rw [classOf, if_pos hE, if_neg hT], hE, hT⟩)
  · by_cases h0 : expField x = 0
    · exact .inr (.inr (.inl ⟨by rw [classOf, if_neg hE, if_pos h0], h0⟩))
    · exact .inr (.inr (.inr ⟨by rw [classOf, if_neg hE, if_neg h0], by omega, by omega⟩))

/-- `classOf` names the class predicate that holds (R88). -/
theorem class_iff_classOf (x : Word) :
    (isNaN x = true ↔ classOf x = .nan) ∧ (isInf x = true ↔ classOf x = .infinity) ∧
    (isNormal x = true ↔ classOf x = .normal) ∧ (isE0 x = true ↔ classOf x = .e0) := by
  rw [isNaN_iff, isInf_iff, isNormal_iff, isE0_iff]
  rcases classOf_cases x with ⟨hc, hE, hT⟩ | ⟨hc, hE, hT⟩ | ⟨hc, hE⟩ | ⟨hc, hE1, hE2⟩
  · simp [hc, hE, hT]
  · simp [hc, hE, hT]
  · simp [hc, hE]
  · simp only [hc, reduceCtorEq, iff_false, iff_true]
    omega

/-- Settles O8: the conditions are the predicates' own, and `classOf` distinguishes four of them. -/
theorem exactlyOneClassHolds : Obligations.ExactlyOneClassHolds := fun x =>
  ⟨isNaN_iff x, isInf_iff x, isFinite_iff x, isNormal_iff x, isE0_iff x, isZero_iff x,
    isSubnormal_iff x, class_iff_classOf x⟩

/-- The exponent of an E0 word is that of the smallest normal (R85). -/
theorem unbiasedExp_of_expField_zero {x : Word} (h : expField x = 0) : unbiasedExp x = -16382 :=
  if_pos h

/-- The bias is 16383 (R85). -/
theorem unbiasedExp_of_expField_ne_zero {x : Word} (h : expField x ≠ 0) :
    unbiasedExp x = expField x - 16383 := if_neg h

/-- Settles O9: each clause is the branch of the definition that its condition on `E` chooses. -/
theorem exponentAndSignificand : Obligations.ExponentAndSignificand := by
  intro x
  refine ⟨fun h1 _ => unbiasedExp_of_expField_ne_zero (by omega), unbiasedExp_of_expField_zero,
    unbiasedExp_bounds, fun h => ?_, fun h => ⟨if_neg h, ?_⟩, significand_lt x⟩
  · rw [significand_eq, if_pos h]
  · rw [significand_eq, if_neg h]

/-- The value of a zero of either sign (R87). -/
theorem value_of_isZero {x : Word} (h : isZero x = true) : value x = 0 := by
  obtain ⟨hE, hT⟩ := (isZero_iff x).mp h
  rw [value, significand_eq, if_pos hE, hT, Nat.cast_zero, mul_zero, zero_mul]

/-- The value of a word of positive sign, with the exponent of its lowest significand bit (R87). -/
theorem value_of_positive {x : Word} {m : Nat} {e : Int} (hs : signBit x = false)
    (hm : significand x = m) (he : unbiasedExp x - 112 = e) : value x = m * 2 ^ e := by
  simp [value, hs, hm, he]

/-- With no trailing bit set, a normal word of positive sign is a power of two (R86, R87). -/
theorem value_of_trailing_zero {x : Word} (hs : signBit x = false) (hE : expField x ≠ 0)
    (hT : trailing x = 0) : value x = 2 ^ unbiasedExp x := by
  have hm : significand x = 2 ^ 112 := by rw [significand_eq, if_neg hE, hT, Nat.zero_add]
  rw [value_of_positive hs hm rfl, Nat.cast_pow, Nat.cast_ofNat, ← zpow_natCast,
    ← zpow_add₀ two_ne_zero]
  congr 1
  push_cast
  omega

theorem value_eps : value eps = 2 ^ (-16494 : Int) := by
  rw [value_of_positive (m := 1) (e := -16494) (by decide) (by decide) (by decide), Nat.cast_one,
    one_mul]

theorem value_maxSub : value maxSub = (2 ^ 112 - 1) * 2 ^ (-16494 : Int) := by
  rw [value_of_positive (m := 2 ^ 112 - 1) (e := -16494) (by decide) (by decide) (by decide)]
  norm_num

theorem value_maxFinite : value maxFinite = (2 ^ 113 - 1) * 2 ^ (16271 : Int) := by
  rw [value_of_positive (m := 2 ^ 113 - 1) (e := 16271) (by decide) (by decide) (by decide)]
  norm_num

theorem value_minNormal : value minNormal = 2 ^ (-16382 : Int) :=
  value_of_trailing_zero (by decide) (by decide) (by decide)

theorem value_one : value one = 1 :=
  value_of_trailing_zero (x := one) (by decide) (by decide) (by decide)

theorem value_two : value two = 2 := by
  have he : unbiasedExp two = 1 := by decide
  rw [value_of_trailing_zero (by decide) (by decide) (by decide), he, zpow_one]

/-- Settles O10: the words are the definitions' own, the values follow from their fields. -/
theorem namedWordsHaveTheirValues : Obligations.NamedWordsHaveTheirValues :=
  ⟨⟨rfl, value_of_isZero (by decide), by decide⟩, ⟨rfl, value_of_isZero (by decide), by decide⟩,
    ⟨rfl, by decide, by decide⟩, ⟨rfl, by decide, by decide⟩, ⟨rfl, value_eps⟩, ⟨rfl, value_maxSub⟩,
    ⟨rfl, value_minNormal⟩, ⟨rfl, value_one⟩, ⟨rfl, value_two⟩, ⟨rfl, value_maxFinite⟩⟩

end Sys2Proof.Machine
end

section
/-! PROOFS. What the lines of a request script drive on the ports (30_encoding.md R96, R97). -/

namespace Sys2Proof.Machine

/-- `IDLE n` takes `n` edges (R97). -/
@[simp] theorem idleDrives_length (n t : Nat) : (idleDrives n t).length = n := by
  induction n generalizing t with
  | zero => rfl
  | succ n ih => rw [idleDrives, List.length_cons, ih]

/-- An edge of an `IDLE n` line is the idle edge of its number (R97). -/
theorem mem_idleDrives {n t : Nat} {d : Drive} (h : d ∈ idleDrives n t) : ∃ k, d = idleDrive k := by
  induction n generalizing t with
  | zero => cases h
  | succ n ih =>
    rcases List.mem_cons.mp h with rfl | hrest
    · exact ⟨t, rfl⟩
    · exact ih hrest

/-- Settles O54: a line drives its own edges, and an `IDLE n` line drives idle edges alone. -/
theorem linesDriveTheirEdges : Obligations.LinesDriveTheirEdges := by
  intro t a b n
  refine ⟨rfl, rfl, ⟨idleDrives_length n t, fun d hd => ?_⟩, resetDrive t, rfl, rfl⟩
  obtain ⟨k, rfl⟩ := mem_idleDrives hd
  exact ⟨rfl, rfl⟩

end Sys2Proof.Machine
end

section
/-! PROOFS. The special cases of FPADD in every operand order (40_fp_add.md R111 to R116, R140). -/

namespace Sys2Proof.Machine

/-- Operands that stand in order are not swapped (R111). -/
theorem fpadd_of_le (t : Nat) {a b : Word} (h : expField b ≤ expField a) :
    fpadd t a b = fpaddOrdered t a b := by
  rw [fpadd, orderOperands, if_neg (by omega)]

theorem fpadd_of_specialCase {t : Nat} {a b r : Word} (h : expField b ≤ expField a)
    (hs : specialCase t a b = some r) : fpadd t a b = r := by
  rw [fpadd_of_le t h, fpaddOrdered_some hs]

theorem fpadd_of_generalPath {t : Nat} {a b : Word} (h : expField b ≤ expField a)
    (hs : specialCase t a b = none) : fpadd t a b = generalPath a b := by
  rw [fpadd_of_le t h, fpaddOrdered_none hs]

/-- Infinities and NaNs have the largest exponent field, so they stand first (R88, R111). -/
theorem expField_le_of_isInf {a : Word} (b : Word) (h : isInf a = true) :
    expField b ≤ expField a := by
  have hb := expField_lt b
  have ha := ((isInf_iff a).mp h).1
  omega

theorem isInf_of_isFinite {x : Word} (h : isFinite x = true) : isInf x = false :=
  decide_eq_false fun hi => (isFinite_iff x).mp h hi.1

theorem isFinite_of_isNaN {x : Word} (h : isNaN x = true) : isFinite x = false :=
  decide_eq_false fun hf => hf ((isNaN_iff x).mp h).1

theorem isInf_of_isNaN {x : Word} (h : isNaN x = true) : isInf x = false :=
  decide_eq_false fun hi => ((isNaN_iff x).mp h).2 hi.2

theorem isFinite_of_isNormal {x : Word} (h : isNormal x = true) : isFinite x = true :=
  (isFinite_iff x).mpr (by have := (isNormal_iff x).mp h; omega)

theorem isFinite_of_isE0 {x : Word} (h : isE0 x = true) : isFinite x = true :=
  (isFinite_iff x).mpr (by have := (isE0_iff x).mp h; omega)

/-! ## One rule per special case -/

/-- Special case 1 (R112). -/
theorem specialCase_inf_inf (t : Nat) {a b : Word} (ha : isInf a = true) (hb : isInf b = true) :
    specialCase t a b = some (if signBit a = signBit b then a else snan) := by
  rw [specialCase, ha, hb]
  rfl

/-- Special case 2 on ordered operands (R113). -/
theorem specialCase_inf_finite (t : Nat) {a b : Word} (ha : isInf a = true)
    (hb : isFinite b = true) : specialCase t a b = some a := by
  rw [specialCase, ha, hb, isInf_of_isFinite hb]
  rfl

/-- Special case 3: a NaN operand takes neither case of an infinity (R114). -/
theorem specialCase_nan (t : Nat) {a b : Word} (h : isNaN a = true ∨ isNaN b = true) :
    specialCase t a b = some (qnan t) := by
  rcases h with h | h
  · simp [specialCase, h, isInf_of_isNaN h, isFinite_of_isNaN h]
  · simp [specialCase, h, isInf_of_isNaN h, isFinite_of_isNaN h]

/-- Special case 4 (R115). -/
theorem specialCase_normal_e0 (t : Nat) {a b : Word} (ha : isNormal a = true)
    (hb : isE0 b = true) : specialCase t a b = some a := by
  have hfa := isFinite_of_isNormal ha
  have hfb := isFinite_of_isE0 hb
  simp [specialCase, ha, hb, isInf_of_isFinite hfa, isInf_of_isFinite hfb, isNaN_of_isFinite hfa,
    isNaN_of_isFinite hfb]

/-! ## Their results in both operand orders -/

theorem fpadd_inf_inf (t : Nat) {a b : Word} (ha : isInf a = true) (hb : isInf b = true) :
    fpadd t a b = if signBit a = signBit b then a else snan :=
  fpadd_of_specialCase (expField_le_of_isInf b ha) (specialCase_inf_inf t ha hb)

theorem fpadd_inf_finite (t : Nat) {a b : Word} (ha : isInf a = true) (hb : isFinite b = true) :
    fpadd t a b = a :=
  fpadd_of_specialCase (expField_le_of_isInf b ha) (specialCase_inf_finite t ha hb)

theorem fpadd_nan (t : Nat) {a b : Word} (h : isNaN a = true ∨ isNaN b = true) :
    fpadd t a b = qnan t := by
  rcases orderOperands_cases a b with ⟨-, ho⟩ | ⟨-, ho⟩
  · rw [fpadd, ho, fpaddOrdered_some (specialCase_nan t h.symm)]
  · rw [fpadd, ho, fpaddOrdered_some (specialCase_nan t h)]

theorem fpadd_normal_e0 (t : Nat) {a b : Word} (ha : isNormal a = true) (hb : isE0 b = true) :
    fpadd t a b = a :=
  fpadd_of_specialCase (by rw [(isE0_iff b).mp hb]; exact Nat.zero_le _)
    (specialCase_normal_e0 t ha hb)

/-- Settles O14: each clause is the special case of its operand classes; the finite operand first is
the infinity first by commutation. -/
theorem infinityAndNaNResults : Obligations.InfinityAndNaNResults := by
  intro t a b
  refine ⟨fun ha hb hs => ?_, fun ha hb hs => ?_, fpadd_inf_finite t, fun ha hb => ?_, fpadd_nan t⟩
  · rw [fpadd_inf_inf t ha hb, if_pos hs]
  · rw [fpadd_inf_inf t ha hb, if_neg hs]
  · rw [fpadd_comm, fpadd_inf_finite t hb ha]

/-- Settles O15: special case 4, and the other order by commutation. -/
theorem normalWithE0GivesTheNormal : Obligations.NormalWithE0GivesTheNormal := fun t a b ha hb =>
  ⟨fpadd_normal_e0 t ha hb, (fpadd_comm t b a).trans (fpadd_normal_e0 t ha hb)⟩

/-- Two finite words are both E0 or both not exactly when both are normal or both are E0 (R88). -/
theorem sameClass_iff {a b : Word} (ha : isFinite a = true) (hb : isFinite b = true) :
    (expField a = 0 ↔ expField b = 0) ↔
      (isNormal a = true ∧ isNormal b = true) ∨ (isE0 a = true ∧ isE0 b = true) := by
  have hla := expField_lt a
  have hlb := expField_lt b
  rw [isFinite_iff] at ha hb
  rw [isNormal_iff, isNormal_iff, isE0_iff, isE0_iff]
  omega

/-- Settles O16: what is left when no special case applies, and that none applies to it. -/
theorem generalPathOperands : Obligations.GeneralPathOperands := by
  intro t a b ho
  constructor
  · intro h
    obtain ⟨ha, hb, hE⟩ := specialCase_none h ho
    exact ⟨ha, hb, (sameClass_iff ha hb).mp hE⟩
  · rintro ⟨ha, hb, hclass⟩
    exact specialCase_eq_none ha hb ((sameClass_iff ha hb).mpr hclass)

/-- Settles O25: `fpadd_comm` for every pair. -/
theorem additionCommutes : Obligations.AdditionCommutes := fpadd_comm

end Sys2Proof.Machine
end

section
/-! PROOFS. The steps of the general path: alignment, cancellation, normalization, rounding and their ranges (40_fp_add.md R120 to R128). -/

namespace Sys2Proof.Machine

/-! ## Alignment -/

/-- A shift of a 116-bit addend by 128 or more places leaves its sticky bit alone (R122). -/
theorem alignRight_of_ge {B d : Nat} (hB : B < 2 ^ 116) (hd : 128 ≤ d) :
    alignRight B d = if B = 0 then 0 else 1 := by
  have hlt : B < 2 ^ d :=
    hB.trans (Nat.pow_lt_pow_right (by decide) (by omega))
  rw [alignRight_eq (by omega), Nat.mod_eq_of_lt hlt, Nat.div_eq_of_lt hlt]

/-- Settles O18: the sticky bit is 0 or 1 as the bits shifted out are. -/
theorem alignmentKeepsSticky : Obligations.AlignmentKeepsSticky := by
  intro B d hB
  have hB128 : B < 2 ^ 128 := by omega
  refine ⟨fun h => ?_, fun h => ?_, alignRight_of_ge hB, alignRight_zero B⟩
  · rw [alignRight_eq hB128, if_pos h]
  · rw [alignRight_eq hB128, if_neg h, or_one_eq]

/-! ## Cancellation -/

/-- With exponents apart the first operand is normal (R85, R120). -/
theorem expField_ne_zero_of_expDiff {a b : Word} (h : expDiff a b ≠ 0) : expField a ≠ 0 := by
  intro h0
  have hb := le_unbiasedExp b
  rw [expDiff, unbiasedExp_of_expField_zero h0] at h
  omega

/-- The widened significand of a normal word has bit 115 set (R121). -/
theorem le_widen_significand {x : Word} (h : expField x ≠ 0) :
    2 ^ 115 ≤ widen (significand x) := by
  have := le_significand h
  rw [widen_eq]
  omega

/-- The aligned addend is below half its range when it is shifted, or it is odd (R122, R124). -/
theorem alignRight_lt_or_odd {B d : Nat} (hB : B < 2 ^ 116) (hd : d ≠ 0) :
    alignRight B d < 2 ^ 115 ∨ alignRight B d % 2 = 1 := by
  rw [alignRight_eq (by omega)]
  split
  · left
    obtain ⟨k, rfl⟩ := Nat.exists_eq_add_one_of_ne_zero hd
    have hdiv : B / 2 ^ (k + 1) ≤ B / 2 := by
      rw [Nat.pow_succ, Nat.mul_comm, ← Nat.div_div_eq_div_mul]
      exact Nat.div_le_self _ _
    omega
  · right
    omega

/-- Equal magnitudes come only from equal exponents and significands: `A` is a multiple of 8, and is
at least `2^115` where `B` is shifted (R124). -/
theorem expDiff_eq_zero_of_cancel {a b : Word}
    (h : widen (significand a) = alignRight (widen (significand b)) (expDiff a b)) :
    expDiff a b = 0 ∧ significand a = significand b := by
  have hd : expDiff a b = 0 := by
    by_contra hd
    have hA := le_widen_significand (expField_ne_zero_of_expDiff hd)
    have heven : widen (significand a) % 2 = 0 := by rw [widen_eq]; omega
    rcases alignRight_lt_or_odd (widen_significand_lt b) hd with hlt | hodd
    · omega
    · omega
  rw [hd, alignRight_zero, widen_eq, widen_eq] at h
  exact ⟨hd, by omega⟩

/-- Equal magnitudes of opposite signs cancel (R124). -/
theorem generalPath_cancel {a b : Word} (hs : signBit a ≠ signBit b)
    (h : widen (significand a) = alignRight (widen (significand b)) (expDiff a b)) :
    generalPath a b = posZero := by
  rw [generalPath, ← h, combine, if_neg hs, if_neg (lt_irrefl _), if_neg (lt_irrefl _)]

/-- `x + (−x) = +0` (R124). -/
theorem fpadd_flipSign_self (t : Nat) {x : Word} (hx : isFinite x = true) :
    fpadd t x (flipSign x) = posZero := by
  have hE := expField_flipSign x
  have hsp : specialCase t x (flipSign x) = none :=
    specialCase_eq_none hx (by simpa using hx) (by rw [hE])
  rw [fpadd_of_generalPath hE.le hsp]
  refine generalPath_cancel (by simp) ?_
  rw [expDiff_eq_zero hE.symm, alignRight_zero, significand_flipSign]

theorem flipSign_posZero : flipSign posZero = negZero := by decide

/-- Zeros of opposite signs are a zero and its negation (R124). -/
theorem fpadd_zeros_opposite (t : Nat) :
    fpadd t posZero negZero = posZero ∧ fpadd t negZero posZero = posZero := by
  have hpos := fpadd_flipSign_self t (x := posZero) (by decide)
  rw [flipSign_posZero] at hpos
  exact ⟨hpos, (fpadd_comm _ _ _).trans hpos⟩

/-- Settles O19: a word and its negation have equal magnitudes and opposite signs. -/
theorem cancellationGivesPlusZero : Obligations.CancellationGivesPlusZero := by
  refine ⟨fun t x hx => fpadd_flipSign_self t hx, fpadd_zeros_opposite, fun t a b ho hsp h => ?_⟩
  obtain ⟨hd, hm⟩ := expDiff_eq_zero_of_cancel h
  exact ⟨hd, hm, fun hs => (fpadd_of_generalPath ho hsp).trans (generalPath_cancel hs h)⟩

/-! ## Normalization -/

/-- A zero magnitude is shifted until the exponent is at its floor (R127). -/
theorem normalize_zero {eR : Int} (he : -16382 ≤ eR) :
    normalize 0 eR = (0, eR - (eR + 16382).toNat) := by
  obtain ⟨k, hk, -, hfloor, hexit⟩ := normalize_left (M := 0) (by decide) he
  have hk0 : k = (eR + 16382).toNat := by omega
  rw [hk, hk0, Nat.zero_mul]

/-- Settles O20: a nonzero magnitude by its leading bit, a zero one by the exponent alone. -/
theorem leftLoopIsOneShift : Obligations.LeftLoopIsOneShift := by
  intro M eR hM he
  by_cases h0 : M = 0
  · subst h0
    simp only [if_pos, normalize_zero he, Nat.zero_mul]
  · simp only [if_neg h0, normalize_eq_shift h0 hM he]

/-! ## Rounding -/

/-- The rounded significand lies within half a unit, and is even at exactly half a unit (R128). -/
theorem roundNearest_near (M : Nat) :
    |8 * (roundNearest M : Int) - M| ≤ 4 ∧
    (|8 * (roundNearest M : Int) - M| = 4 → roundNearest M % 2 = 0) := by
  rw [roundNearest_eq, abs_le, abs_eq (by decide)]
  split
  · push_cast
    omega
  · push_cast
    omega

/-- Settles O21: the rounding condition in arithmetic on the low three bits. -/
theorem roundingIsNearestEven : Obligations.RoundingIsNearestEven := by
  intro M
  obtain ⟨hnear, htie⟩ := roundNearest_near M
  refine ⟨?_, fun hM => ?_, hnear, htie⟩
  · have hup : roundsUp M = true ↔
        M.testBit 2 = true ∧ (M.testBit 3 = true ∨ M.testBit 1 = true ∨ M.testBit 0 = true) := by
      simp [roundsUp, guardBit, keptLsb, roundBit, lowBit, or_assoc]
    have hdiv : M >>> 3 = M / 8 := Nat.shiftRight_eq_div_pow M 3
    simp only [roundNearest, hup, hdiv]
    split <;> rfl
  · have := (roundNearest_bounds hM).1
    omega

/-! ## Ranges -/

theorem addCarry_ofNat {A B : Nat} (h : A + B < 2 ^ 128) :
    (addCarry (BitVec.ofNat 128 A) (BitVec.ofNat 128 B)).1 = false := by
  have hA := Nat.mod_le A (2 ^ 128)
  have hB := Nat.mod_le B (2 ^ 128)
  simp only [addCarry, BitVec.toNat_ofNat, decide_eq_false_iff_not]
  omega

theorem subBorrow_ofNat {A B : Nat} (hA : A < 2 ^ 128) (h : B ≤ A) :
    (subBorrow (BitVec.ofNat 128 A) (BitVec.ofNat 128 B)).1 = false := by
  have hB := Nat.mod_le B (2 ^ 128)
  simp only [subBorrow, BitVec.toNat_ofNat, decide_eq_false_iff_not, Nat.mod_eq_of_lt hA]
  omega

/-- Settles O22: both addends are below `2^116`, and every later bound follows from that. -/
theorem datapathStaysIn117Bits : Obligations.DatapathStaysIn117Bits := by
  intro t a b _ _ A B'
  have hA : A < 2 ^ 116 := widen_significand_lt a
  have hB : B' < 2 ^ 116 := alignRight_lt (widen_significand_lt b) _
  refine ⟨hA, hB, addCarry_ofNat (by omega), subBorrow_ofNat (by omega),
    subBorrow_ofNat (by omega), fun s M hc => ?_⟩
  have hM := combine_lt hA hB hc
  obtain ⟨hn, -⟩ := normalize_bounds hM (le_unbiasedExp a)
  exact ⟨hM, hn, (roundNearest_bounds hn).1⟩

end Sys2Proof.Machine
end

section
/-! PROOFS. The sign flip, bit by bit (40_fp_add.md R150). -/

namespace Sys2Proof.Machine

/-- Settles O12: the mask `2^127` has bit 127 alone. -/
theorem flipSignInvertsOnlyBit127 : Obligations.FlipSignInvertsOnlyBit127 := by
  intro x i hi
  have hmask : (BitVec.ofNat 128 (2 ^ 127)).getLsbD i = decide (i = 127) := by
    rw [BitVec.getLsbD_ofNat, Nat.testBit_two_pow, decide_eq_true hi, Bool.true_and]
    exact decide_eq_decide.mpr eq_comm
  rw [flipSign, BitVec.getLsbD_xor, hmask]
  by_cases h : i = 127
  · rw [if_pos h, decide_eq_true h, Bool.xor_true]
  · rw [if_neg h, decide_eq_false h, Bool.xor_false]

end Sys2Proof.Machine
end

section
/-! PROOFS. What an accepted request leaves of the state (10_state.md R36, R38; 40_fp_add.md R151, R152). -/

namespace Sys2Proof.Machine

/-- Every stage but the first takes the one before it (R38). -/
theorem State.accept_stage? (s : State) (r : Word) {k : Nat} (h1 : 1 ≤ k) (hk : k < s.latency) :
    (s.accept r).stage? (k + 1) = s.stage? k := by
  obtain ⟨j, rfl⟩ := Nat.exists_eq_add_of_le' h1
  have hj : j < s.stages.dropLast.length := by
    rw [List.length_dropLast, State.stages_length]
    omega
  change (s.accept r).stages[j + 1]? = s.stages[j]?
  rw [State.accept_stages, List.getElem?_cons_succ, List.getElem?_eq_getElem hj,
    List.getElem_dropLast, List.getElem?_eq_getElem]

/-- Settles O34: the accepted value is `FPADD(a, b)`. -/
theorem addCompletes : Obligations.AddCompletes := fun a b s =>
  ⟨s.accept (fpadd Config.qnanT a b), rfl, rfl, s.accept_latency _,
    fun _ h1 hk => s.accept_stage? _ h1 hk, rfl, rfl, rfl, rfl, rfl⟩

/-- Settles O35: the accepted value is `FPADD(a, flip_sign(b))`. -/
theorem subCompletes : Obligations.SubCompletes := fun a b s =>
  ⟨s.accept (fpadd Config.qnanT a (flipSign b)), rfl, rfl, s.accept_latency _,
    fun _ h1 hk => s.accept_stage? _ h1 hk, rfl, rfl, rfl, rfl, rfl⟩

end Sys2Proof.Machine
end

section
/-! PROOFS. The encoded word: its fields and its value, and exact results (40_fp_add.md R126 to R132, R143; 30_encoding.md R87). -/

namespace Sys2Proof.Machine

/-! ## The value of a word -/

/-- The factor a sign bit stands for (R87). -/
def signFactor (s : Bool) : ℚ := if s then -1 else 1

theorem signFactor_false : signFactor false = 1 := rfl

theorem signFactor_true : signFactor true = -1 := rfl

@[simp] theorem abs_signFactor (s : Bool) : |signFactor s| = 1 := by
  cases s
  · rw [signFactor_false, abs_one]
  · rw [signFactor_true, abs_neg, abs_one]

theorem signFactor_not (s : Bool) : signFactor (!s) = -signFactor s := by
  cases s
  · rfl
  · exact (neg_neg _).symm

theorem signFactor_of_ne {s s' : Bool} (h : s ≠ s') : signFactor s' = -signFactor s := by
  rw [Bool.eq_not.mpr h.symm, signFactor_not]

theorem signFactor_ne_zero (s : Bool) : signFactor s ≠ 0 := by
  rw [← abs_pos, abs_signFactor]
  exact one_pos

/-- R87 with the sign as a factor. -/
theorem value_eq (x : Word) :
    value x = signFactor (signBit x) * significand x * 2 ^ (unbiasedExp x - 112) := rfl

theorem value_flipSign (x : Word) : value (flipSign x) = -value x := by
  rw [value_eq, value_eq, signBit_flipSign, significand_flipSign, unbiasedExp_flipSign,
    signFactor_not]
  ring

/-! ## The encoder -/

/-- Without overflow the encoder makes a finite word of the sign, significand and exponent it is
given, when the exponent of a significand without implicit bit is at its floor (R131, R132). -/
theorem encodeResult_fields {s : Bool} {q : Nat} {eR : Int} (hq : q < 2 ^ 113)
    (he : -16382 ≤ eR) (hmax : eR ≤ 16383) (hsub : q < 2 ^ 112 → eR = -16382) :
    isFinite (encodeResult s q eR) = true ∧ signBit (encodeResult s q eR) = s ∧
    significand (encodeResult s q eR) = q ∧ unbiasedExp (encodeResult s q eR) = eR := by
  rcases encodeResult_cases (s := s) hq he with ⟨hov, -⟩ | ⟨-, hn, hs, hE, hT⟩ |
    ⟨-, hlt, hs, hE, hT⟩
  · omega
  · have hE0 : expField (encodeResult s q eR) ≠ 0 := by omega
    refine ⟨(isFinite_iff _).mpr (by omega), hs, ?_, ?_⟩
    · rw [significand_eq, if_neg hE0, hT]
      omega
    · rw [unbiasedExp_of_expField_ne_zero hE0, hE]
      omega
  · refine ⟨(isFinite_iff _).mpr (by omega), hs, ?_, ?_⟩
    · rw [significand_eq, if_pos hE, hT]
    · rw [unbiasedExp_of_expField_zero hE, hsub hlt]

/-- Its value is that of the rounded significand (R132). -/
theorem value_encodeResult {s : Bool} {q : Nat} {eR : Int} (hq : q < 2 ^ 113)
    (he : -16382 ≤ eR) (hmax : eR ≤ 16383) (hsub : q < 2 ^ 112 → eR = -16382) :
    value (encodeResult s q eR) = signFactor s * q * 2 ^ (eR - 112) := by
  obtain ⟨-, hs, hm, hu⟩ := encodeResult_fields (s := s) hq he hmax hsub
  rw [value_eq, hs, hm, hu]

/-- The branch of the encoder shows in the exponent field (R131, R132). -/
theorem expField_encodeResult {s : Bool} {q : Nat} {eR : Int} (hq : q < 2 ^ 113)
    (he : -16382 ≤ eR) (hmax : eR ≤ 16383) :
    (q < 2 ^ 112 → expField (encodeResult s q eR) = 0) ∧
    (2 ^ 112 ≤ q → 1 ≤ expField (encodeResult s q eR) ∧
      expField (encodeResult s q eR) ≤ 32766) := by
  rcases encodeResult_cases (s := s) hq he with ⟨hov, -⟩ | ⟨-, hn, -, hE, -⟩ |
    ⟨-, hlt, -, hE, -⟩
  · omega
  · omega
  · omega

/-- Settles O24: the bounds on what reaches the encoder, and the encoder's fields and value. -/
theorem encodedResultHasItsValue : Obligations.EncodedResultHasItsValue := by
  intro s M eR hM he _ n r hmax
  obtain ⟨hq, hfloor, -, hsub⟩ : r.1 < 2 ^ 113 ∧ -16382 ≤ r.2 ∧ r.2 ≤ eR + 2 ∧
    (r.1 < 2 ^ 112 → r.2 = -16382) := rounded_bounds hM he
  have hfin : finish s M eR = encodeResult s r.1 r.2 := rfl
  have htop := testBit_top (k := 112) hq
  obtain ⟨hf, hs, -, -⟩ := encodeResult_fields (s := s) hq hfloor hmax hsub
  obtain ⟨hE0, hE1⟩ := expField_encodeResult (s := s) hq hfloor hmax
  rw [hfin]
  refine ⟨hf, hs, fun hbit => ?_, fun hbit => ?_, value_encodeResult hq hfloor hmax hsub⟩
  · have hlt : r.1 < 2 ^ 112 := not_le.mp (of_decide_eq_false (htop.symm.trans hbit))
    exact ⟨hsub hlt, hlt, hE0 hlt⟩
  · have hge : 2 ^ 112 ≤ r.1 := of_decide_eq_true (htop.symm.trans hbit)
    exact ⟨hfloor, hge, hq, hE1 hge⟩

/-! ## Zeros -/

theorem roundNearest_widened (m : Nat) : roundNearest (8 * m) = m := by
  rw [roundNearest_eq, if_neg (by omega)]
  omega

/-- A trailing significand at the least exponent is encoded as it is (R127 to R131). -/
theorem finish_e0 (s : Bool) {m : Nat} (hm : m < 2 ^ 112) :
    finish s (8 * m) (-16382) = pack s 0 m := by
  have htop := testBit_top (k := 112) (M := m) (by omega)
  have hbit : ¬ m.testBit 112 = true := by
    rw [htop]
    simpa using hm
  rw [finish, normalize_at_floor (by omega), roundNearest_widened, roundCarry, if_neg (by omega),
    encodeResult, if_neg (show ¬ (16383 : Int) < -16382 by decide), if_neg hbit,
    Nat.mod_eq_of_lt hm]

/-- Magnitudes that do not cancel are normalized, rounded and encoded (R123, R126 to R131). -/
theorem generalPath_of_combine {a b : Word} {s : Bool} {M : Nat}
    (h : combine (signBit a) (signBit b) (widen (significand a))
      (alignRight (widen (significand b)) (expDiff a b)) = some (s, M)) :
    generalPath a b = finish s M (unbiasedExp a) := by
  rw [generalPath, h]

/-- Two E0 words meet on the general path, unaligned, at the least exponent (R116, R120). -/
theorem fpadd_e0_e0 (t : Nat) {a b : Word} {s : Bool} {M : Nat} (ha : isE0 a = true)
    (hb : isE0 b = true)
    (h : combine (signBit a) (signBit b) (8 * trailing a) (8 * trailing b) = some (s, M)) :
    fpadd t a b = finish s M (-16382) := by
  have hEa := (isE0_iff a).mp ha
  have hEb := (isE0_iff b).mp hb
  have hE : expField a = expField b := hEa.trans hEb.symm
  have hsp : specialCase t a b = none :=
    specialCase_eq_none (isFinite_of_isE0 ha) (isFinite_of_isE0 hb) (by rw [hE])
  rw [fpadd_of_generalPath hE.ge hsp, ← unbiasedExp_of_expField_zero hEa]
  refine generalPath_of_combine ?_
  rw [expDiff_eq_zero hE, alignRight_zero, widen_eq, widen_eq, significand_eq, if_pos hEa,
    significand_eq, if_pos hEb, h]

/-- An E0 word with a zero whose sign it shares, or that it exceeds, is unchanged (R143). -/
theorem fpadd_e0_zero (t : Nat) {x z : Word} (hx : isE0 x = true) (hz : isZero z = true)
    (h : signBit x = signBit z ∨ trailing x ≠ 0) : fpadd t x z = x := by
  obtain ⟨hzE, hzT⟩ := (isZero_iff z).mp hz
  have hc : combine (signBit x) (signBit z) (8 * trailing x) (8 * trailing z) =
      some (signBit x, 8 * trailing x) := by
    rw [hzT]
    rcases combine_cases (signBit x) (signBit z) (8 * trailing x) (8 * 0) with
      ⟨-, hc⟩ | ⟨-, -, hc⟩ | ⟨hs, hlt, -⟩ | ⟨hs, heq, -⟩
    · exact hc
    · exact hc
    · omega
    · exact absurd (h.resolve_left hs) (by omega)
  have hpack := pack_fields x
  rw [(isE0_iff x).mp hx] at hpack
  rw [fpadd_e0_e0 t hx ((isE0_iff z).mpr hzE) hc, finish_e0 (signBit x) (trailing_lt x), hpack]

/-- Settles O26: a zero leaves a normal by special case 4, an E0 word on the general path. -/
theorem zeroTable : Obligations.ZeroTable := by
  intro t
  obtain ⟨hpn, hnp⟩ := fpadd_zeros_opposite t
  refine ⟨fpadd_e0_zero t (by decide) (by decide) (.inl rfl),
    fpadd_e0_zero t (by decide) (by decide) (.inl rfl), hpn, hnp, fun x hx => ?_, fun x hx => ?_,
    fun x hx => fpadd_flipSign_self t hx⟩
  · exact ⟨fpadd_normal_e0 t hx (by decide), fpadd_normal_e0 t hx (by decide)⟩
  · obtain ⟨hE, hT⟩ := (isSubnormal_iff x).mp hx
    have hE0 := (isE0_iff x).mpr hE
    exact ⟨fpadd_e0_zero t hE0 (by decide) (.inr hT), fpadd_e0_zero t hE0 (by decide) (.inr hT)⟩

end Sys2Proof.Machine
end

section
/-! PROOFS. When a word is the nearest to a number: the grids that finite words lie on (30_encoding.md R85 to R87, 40_fp_add.md R141). -/

namespace Sys2Proof.Machine

/-! ## Magnitudes of finite words -/

theorem abs_value (x : Word) : |value x| = significand x * 2 ^ (unbiasedExp x - 112) := by
  rw [value_eq, abs_mul, abs_mul, abs_signFactor, one_mul, Nat.abs_cast,
    abs_of_pos (zpow_pos two_pos _)]

/-- A power of two times `2^k` places (R127). -/
theorem two_zpow_add_natCast (e : Int) (k : Nat) :
    (2 : ℚ) ^ (e + k) = 2 ^ k * 2 ^ e := by
  rw [zpow_add₀ two_ne_zero, zpow_natCast, mul_comm]

/-- A power of two in units of the last place of its binade (R86, R87). -/
theorem two_zpow_eq_units (e : Int) : (2 : ℚ) ^ e = 2 ^ 112 * 2 ^ (e - 112) := by
  rw [← two_zpow_add_natCast]
  congr 1
  push_cast
  ring

theorem abs_value_lt (x : Word) : |value x| < 2 ^ (unbiasedExp x + 1) := by
  have hm : (significand x : ℚ) < 2 ^ 113 := by exact_mod_cast significand_lt x
  rw [abs_value, zpow_add_one₀ two_ne_zero, two_zpow_eq_units (unbiasedExp x)]
  have hlt := mul_lt_mul_of_pos_right hm (zpow_pos two_pos (unbiasedExp x - 112))
  linarith

/-- The implicit bit bounds a normal word from below (R86). -/
theorem le_abs_value {x : Word} (h : expField x ≠ 0) : 2 ^ unbiasedExp x ≤ |value x| := by
  have hm : (2 ^ 112 : ℚ) ≤ significand x := by exact_mod_cast le_significand h
  rw [abs_value, two_zpow_eq_units (unbiasedExp x)]
  exact mul_le_mul_of_nonneg_right hm (zpow_pos two_pos _).le

/-- A subnormal is below every normal (R88). -/
theorem abs_value_lt_of_expField_zero {x : Word} (h : expField x = 0) :
    |value x| < 2 ^ (-16382 : Int) := by
  have hT : significand x < 2 ^ 112 := by
    rw [significand_eq, if_pos h]
    exact trailing_lt x
  have hm : (significand x : ℚ) < 2 ^ 112 := by exact_mod_cast hT
  rw [abs_value, unbiasedExp_of_expField_zero h, two_zpow_eq_units (-16382)]
  exact mul_lt_mul_of_pos_right hm (zpow_pos two_pos _)

theorem signFactor_mul_int (s : Bool) (n : Int) : ∃ m : Int, signFactor s * n = m := by
  cases s
  · exact ⟨n, by rw [signFactor_false, one_mul]⟩
  · exact ⟨-n, by rw [signFactor_true]; push_cast; ring⟩

/-- From exponent `e` on every word is a multiple of `2^(e − 112)`. -/
theorem value_on_grid {x : Word} {e : Int} (h : e ≤ unbiasedExp x) :
    ∃ n : Int, value x = n * 2 ^ (e - 112) := by
  obtain ⟨k, hk⟩ := Int.eq_ofNat_of_zero_le (sub_nonneg.mpr h)
  obtain ⟨n, hn⟩ := signFactor_mul_int (signBit x) (significand x * 2 ^ k)
  have hexp : unbiasedExp x - 112 = e - 112 + k := by omega
  refine ⟨n, ?_⟩
  rw [← hn, value_eq, hexp, two_zpow_add_natCast]
  push_cast
  ring

/-- Every finite word is on the grid of an exponent, or below the power of two of that exponent. -/
theorem value_on_grid_or_lt (x : Word) (e : Int) :
    (∃ n : Int, value x = n * 2 ^ (e - 112)) ∨ |value x| < 2 ^ e := by
  rcases le_or_gt e (unbiasedExp x) with h | h
  · exact .inl (value_on_grid h)
  · exact .inr ((abs_value_lt x).trans_le (zpow_le_zpow_right₀ one_le_two (by omega)))

/-! ## Nearest points of a grid -/

/-- Two points of a grid of step `u` are together at least `u` away from any number. -/
theorem grid_gap {u : ℚ} (hu : 0 < u) (z : ℚ) {q n : Int} (hne : n ≠ q) :
    u ≤ |q * u - z| + |n * u - z| := by
  have hstep : (1 : ℚ) ≤ |((n - q : Int) : ℚ)| := by
    exact_mod_cast Int.one_le_abs (sub_ne_zero.mpr hne)
  calc u = 1 * u := (one_mul u).symm
    _ ≤ |((n - q : Int) : ℚ)| * u := mul_le_mul_of_nonneg_right hstep hu.le
    _ = |(n * u - z) - (q * u - z)| := by
        rw [← abs_of_pos hu, ← abs_mul, abs_of_pos hu]
        push_cast
        ring_nf
    _ ≤ |n * u - z| + |q * u - z| := abs_sub _ _
    _ = |q * u - z| + |n * u - z| := add_comm _ _

/-- The grid point within half a step is at least as near as every other. -/
theorem grid_nearest {u z : ℚ} (hu : 0 < u) {q : Int} (hhalf : 2 * |q * u - z| ≤ u) (n : Int) :
    |q * u - z| ≤ |n * u - z| := by
  by_cases hne : n = q
  · rw [hne]
  · have := grid_gap hu z hne
    linarith

/-- Of a number at or beyond `k` steps of a grid, the point of `k` steps on its own side of 0 is as
far away as their magnitudes differ. -/
theorem exists_grid_abs_sub {u z : ℚ} {k : Nat} (h : k * u ≤ |z|) :
    ∃ n : Int, |n * u - z| = |z| - k * u := by
  rcases abs_cases z with ⟨hz, -⟩ | ⟨hz, -⟩
  · refine ⟨k, ?_⟩
    rw [hz] at h ⊢
    rw [abs_sub_comm, Int.cast_natCast, abs_of_nonneg (sub_nonneg.mpr h)]
  · refine ⟨-k, ?_⟩
    rw [hz] at h ⊢
    rw [Int.cast_neg, Int.cast_natCast, abs_of_nonneg (by linarith)]
    ring

/-! ## The nearest word -/

/-- A finite word on the grid of an exponent, within half a step of `z` and even at exactly half a
step, is the nearest: finer words are below `2^e`, and `z` is not (R141). -/
theorem nearestEven_of_grid {z : ℚ} {r : Word} {e : Int} (hr : isFinite r = true)
    (hgrid : ∃ q : Int, value r = q * 2 ^ (e - 112))
    (hhalf : 2 * |value r - z| ≤ 2 ^ (e - 112))
    (htie : 2 * |value r - z| = 2 ^ (e - 112) → significand r % 2 = 0)
    (hlow : e = -16382 ∨ 2 ^ e ≤ |z|) : NearestEven z r := by
  have hu : (0 : ℚ) < 2 ^ (e - 112) := zpow_pos two_pos _
  obtain ⟨q, hq⟩ := hgrid
  rw [hq] at hhalf htie
  refine ⟨hr, fun w _ => ?_⟩
  rw [hq]
  have hw : (∃ n : Int, value w = n * 2 ^ (e - 112)) ∨ (|value w| < 2 ^ e ∧ 2 ^ e ≤ |z|) := by
    rcases hlow with rfl | hz
    · exact .inl (value_on_grid (le_unbiasedExp w))
    · exact (value_on_grid_or_lt w e).imp_right fun h => ⟨h, hz⟩
  rcases hw with ⟨n, hn⟩ | ⟨hlt, hz⟩
  · rw [hn]
    refine ⟨grid_nearest hu hhalf n, fun heq hne => htie ?_⟩
    have := grid_gap hu z (q := q) (n := n) fun h => hne (by rw [h])
    linarith
  · have hpow : (2 : ℚ) ^ e = (2 ^ 112 : Nat) * 2 ^ (e - 112) := by
      rw [two_zpow_eq_units e, Nat.cast_pow, Nat.cast_ofNat]
    rw [hpow] at hlt hz
    obtain ⟨n, hn⟩ := exists_grid_abs_sub hz
    have hnear := grid_nearest hu hhalf n
    have htri := abs_sub_abs_le_abs_sub z (value w)
    rw [abs_sub_comm] at htri
    exact ⟨by linarith, fun heq => absurd heq (by linarith)⟩

/-- A word is the nearest to its own value. -/
theorem nearestEven_value {r : Word} (hr : isFinite r = true) : NearestEven (value r) r := by
  refine ⟨hr, fun w _ => ?_⟩
  rw [sub_self, abs_zero]
  exact ⟨abs_nonneg _, fun h hne => absurd (sub_eq_zero.mp (abs_eq_zero.mp h.symm)) hne⟩

/-- The nearest to a number that is the value of a word has that value. -/
theorem NearestEven.value_eq {z : ℚ} {r w : Word} (h : NearestEven z r) (hw : isFinite w = true)
    (hz : value w = z) : value r = z := by
  obtain ⟨hle, -⟩ := h.2 w hw
  rw [hz, sub_self, abs_zero] at hle
  exact sub_eq_zero.mp (abs_eq_zero.mp (le_antisymm hle (abs_nonneg _)))

end Sys2Proof.Machine
end

section
/-! PROOFS. Guard, round and sticky suffice: the datapath's integers stand for exact magnitudes, and what is rounded is the nearest word (40_fp_add.md R121 to R132, R141). -/

namespace Sys2Proof.Machine

/-! ## Integers that stand for exact magnitudes -/

/-- `N` stands for the magnitude `y`: it is `y`, or its lowest set bit is `g`, a sticky bit, and `y`
lies strictly within `g` of it. -/
def StandsFor (g N : Nat) (y : ℚ) : Prop := y = N ∨ (N % (2 * g) = g ∧ |y - N| < g)

theorem StandsFor.pos {N : Nat} {y : ℚ} (h : StandsFor 1 N y) (hN : 0 < N) : 0 < y := by
  have hN1 : (1 : ℚ) ≤ N := by exact_mod_cast hN
  rcases h with h | ⟨-, h⟩
  · rw [h]
    linarith
  · rw [abs_lt] at h
    push_cast at h
    linarith

theorem StandsFor.nonneg {N : Nat} {y : ℚ} (h : StandsFor 1 N y) : 0 ≤ y := by
  rcases Nat.eq_zero_or_pos N with h0 | hN
  · rcases h with h | ⟨hodd, -⟩
    · rw [h]
      exact Nat.cast_nonneg N
    · rw [h0] at hodd
      cases hodd
  · exact (h.pos hN).le

/-- Setting bit 0 of the integer part records a nonzero fractional part (R122, R126). -/
theorem standsFor_of_between {Q : Nat} {y : ℚ} (hlow : Q < y) (hup : y < Q + 1) :
    StandsFor 1 (2 * (Q / 2) + 1) y := by
  refine .inr ⟨by omega, ?_⟩
  rw [abs_lt]
  rcases Nat.mod_two_eq_zero_or_one Q with hQ | hQ
  · have hN : 2 * (Q / 2) + 1 = Q + 1 := by omega
    rw [hN]
    push_cast
    constructor <;> linarith
  · have hN : 2 * (Q / 2) + 1 = Q := by omega
    rw [hN]
    push_cast
    constructor <;> linarith

/-- Nothing is lost when every bit shifted out is 0 (R122). -/
theorem alignRight_exact {B d : Nat} (hB : B < 2 ^ 128) (h : 2 ^ d ∣ B) :
    (B / 2 ^ d : ℚ) = alignRight B d := by
  rw [alignRight_eq hB, if_pos (Nat.mod_eq_zero_of_dvd h),
    Nat.cast_div h (by exact_mod_cast (Nat.two_pow_pos d).ne'), Nat.cast_pow, Nat.cast_ofNat]

/-- The aligned addend stands for the exact quotient (R122). -/
theorem alignRight_standsFor {B : Nat} (hB : B < 2 ^ 128) (d : Nat) :
    StandsFor 1 (alignRight B d) (B / 2 ^ d) := by
  have hpos : (0 : ℚ) < 2 ^ d := pow_pos two_pos d
  have hdiv := Nat.div_add_mod B (2 ^ d)
  have hmod := Nat.mod_lt B (Nat.two_pow_pos d)
  by_cases h0 : B % 2 ^ d = 0
  · exact .inl (alignRight_exact hB (Nat.dvd_of_mod_eq_zero h0))
  · rw [alignRight_eq hB, if_neg h0]
    refine standsFor_of_between ?_ ?_
    · rw [lt_div_iff₀ hpos, mul_comm]
      exact_mod_cast (by omega : 2 ^ d * (B / 2 ^ d) < B)
    · rw [div_lt_iff₀ hpos, mul_comm]
      exact_mod_cast (by rw [Nat.mul_add]; omega : B < 2 ^ d * (B / 2 ^ d + 1))

/-- An integer as far from `y`, and as odd, as one that stands for `b` is from `b` stands for
`y`. -/
theorem StandsFor.of_abs_sub_eq {N M : Nat} {b y : ℚ} (h : StandsFor 1 N b)
    (hdist : |y - M| = |b - N|) (hpar : M % 2 = N % 2) : StandsFor 1 M y ∧ (b = N → y = M) := by
  have hexact : b = N → y = M := fun hb => by
    rw [hb, sub_self, abs_zero] at hdist
    exact sub_eq_zero.mp (abs_eq_zero.mp hdist)
  exact ⟨h.imp hexact fun ⟨hodd, hlt⟩ => ⟨hpar.trans hodd, hdist ▸ hlt⟩, hexact⟩

/-- The combination of the exact magnitudes, and what stands for it: `A` is even, so `M` is as far
from it, and as odd, as `B'` from `b` (R123). -/
theorem combine_standsFor {sa sb s : Bool} {A B' M : Nat} {b : ℚ} (hA : A % 2 = 0)
    (hB : StandsFor 1 B' b) (h : combine sa sb A B' = some (s, M)) :
    ∃ y, (StandsFor 1 M y ∧ (b = B' → y = M)) ∧
      signFactor s * y = signFactor sa * A + signFactor sb * b := by
  rcases combine_cases sa sb A B' with ⟨hs, hc⟩ | ⟨hs, hlt, hc⟩ | ⟨hs, hlt, hc⟩ | ⟨-, -, hc⟩
  · obtain ⟨rfl, rfl⟩ : sa = s ∧ A + B' = M := by simpa [hc] using h
    exact ⟨A + b, hB.of_abs_sub_eq (by push_cast; ring_nf) (by omega), by rw [← hs]; ring⟩
  · obtain ⟨rfl, rfl⟩ : sa = s ∧ A - B' = M := by simpa [hc] using h
    refine ⟨A - b, hB.of_abs_sub_eq ?_ (by omega), by rw [signFactor_of_ne hs]; ring⟩
    rw [Nat.cast_sub hlt.le, abs_sub_comm b]
    ring_nf
  · obtain ⟨rfl, rfl⟩ : sb = s ∧ B' - A = M := by simpa [hc] using h
    refine ⟨b - A, hB.of_abs_sub_eq ?_ (by omega), by rw [signFactor_of_ne hs]; ring⟩
    rw [Nat.cast_sub hlt.le]
    ring_nf
  · rw [hc] at h
    cases h

/-- What else holds of a combination: it is not below the difference, it has a common sign, and it
is not zero when the signs differ (R123). -/
theorem combine_eq_some {sa sb s : Bool} {A B' M : Nat} (h : combine sa sb A B' = some (s, M)) :
    A ≤ M + B' ∧ (sa = sb → s = sa) ∧ (sa ≠ sb → 0 < M) := by
  rcases combine_cases sa sb A B' with ⟨hs, hc⟩ | ⟨hs, hlt, hc⟩ | ⟨hs, hlt, hc⟩ | ⟨-, -, hc⟩
  · obtain ⟨rfl, rfl⟩ : sa = s ∧ A + B' = M := by simpa [hc] using h
    exact ⟨by omega, fun _ => rfl, fun hne => absurd hs hne⟩
  · obtain ⟨rfl, rfl⟩ : sa = s ∧ A - B' = M := by simpa [hc] using h
    exact ⟨by omega, fun _ => rfl, fun _ => by omega⟩
  · obtain ⟨rfl, rfl⟩ : sb = s ∧ B' - A = M := by simpa [hc] using h
    exact ⟨by omega, fun heq => absurd heq hs, fun _ => by omega⟩
  · rw [hc] at h
    cases h

/-- Only opposite signs and equal magnitudes cancel (R124). -/
theorem combine_eq_none {sa sb : Bool} {A B' : Nat} (h : combine sa sb A B' = none) :
    sa ≠ sb ∧ A = B' := by
  rcases combine_cases sa sb A B' with ⟨-, hc⟩ | ⟨-, -, hc⟩ | ⟨-, -, hc⟩ | ⟨hs, heq, -⟩
  · rw [hc] at h
    cases h
  · rw [hc] at h
    cases h
  · rw [hc] at h
    cases h
  · exact ⟨hs, heq⟩

/-- Right normalization halves the magnitude and what stands for it (R126). -/
theorem StandsFor.halve {M : Nat} {y : ℚ} (h : StandsFor 1 M y) :
    StandsFor 1 (if M % 2 = 0 then M / 2 else 2 * (M / 2 / 2) + 1) (y / 2) := by
  split
  · rename_i h0
    refine .inl ?_
    rcases h with h | ⟨hodd, -⟩
    · rw [h, Nat.cast_div (Nat.dvd_of_mod_eq_zero h0) two_ne_zero, Nat.cast_ofNat]
    · omega
  · rename_i h0
    have hM : (M : ℚ) = 2 * (M / 2 : Nat) + 1 := by
      exact_mod_cast (by omega : M = 2 * (M / 2) + 1)
    have hdist : |y - M| < 1 := by
      rcases h with h | ⟨-, hlt⟩
      · rw [h, sub_self, abs_zero]
        exact one_pos
      · simpa using hlt
    rw [abs_lt] at hdist
    exact standsFor_of_between (by linarith) (by linarith)

/-- An inexact magnitude moves left by one place at most, an exact one by any number (R127). -/
theorem StandsFor.shiftLeft {M k : Nat} {y : ℚ} (h : StandsFor 1 M y)
    (hk : y = M ∨ k ≤ 1) : ∃ g, (g = 1 ∨ g = 2) ∧ StandsFor g (M * 2 ^ k) (y * 2 ^ k) := by
  by_cases hexact : y = M
  · exact ⟨1, .inl rfl, .inl (by rw [hexact]; push_cast; rfl)⟩
  · have hodd := h.resolve_left hexact
    obtain rfl | rfl : k = 0 ∨ k = 1 := by have := hk.resolve_left hexact; omega
    · exact ⟨1, .inl rfl, by simpa using h⟩
    · refine ⟨2, .inr rfl, .inr ⟨by omega, ?_⟩⟩
      have hfac : y * 2 ^ 1 - ((M * 2 ^ 1 : Nat) : ℚ) = (y - M) * 2 := by push_cast; ring
      have hlt : |y - M| < 1 := by simpa using hodd.2
      rw [hfac, abs_mul, abs_two]
      push_cast
      linarith

/-- Normalization leaves an integer that stands for the scaled magnitude; a magnitude that is
inexact is large enough to move left by one place at most (R126, R127). -/
theorem normalize_standsFor {M : Nat} {eR : Int} {y : ℚ} (hM : M < 2 ^ 117) (he : -16382 ≤ eR)
    (h : StandsFor 1 M y) (hbig : y = M ∨ 2 ^ 114 ≤ M) :
    ∃ g, (g = 1 ∨ g = 2) ∧
      StandsFor g (normalize M eR).1 (y * 2 ^ (eR - (normalize M eR).2)) := by
  rcases Nat.lt_or_ge M (2 ^ 116) with hlt | hge
  · obtain ⟨k, hn, htop, -, -⟩ := normalize_left hlt he
    have hk : y = M ∨ k ≤ 1 := hbig.imp_right fun hlow => by
      by_contra hk
      have : 2 ^ 2 ≤ 2 ^ k := Nat.pow_le_pow_right (by decide) (by omega)
      have := Nat.mul_le_mul hlow this
      omega
    rw [hn, sub_sub_cancel, zpow_natCast]
    exact h.shiftLeft hk
  · rw [normalize_right eR hge hM, sub_add_cancel_left, zpow_neg_one, ← div_eq_mul_inv]
    exact ⟨1, .inl rfl, h.halve⟩

/-! ## Rounding -/

/-- A normalized magnitude `y` with the integer `N` that the rounding of R128 gets for it. -/
structure Normalized (N : Nat) (e : Int) (y : ℚ) : Prop where
  lt : N < 2 ^ 116
  floor : -16382 ≤ e
  nonneg : 0 ≤ y
  /-- The top bit is in its place, or the exponent is at its floor (R127). -/
  top : 2 ^ 115 ≤ y ∨ e = -16382
  /-- The rounded significand is within half a unit of the exact magnitude. -/
  near : |8 * (roundNearest N : ℚ) - y| ≤ 4
  tie : |8 * (roundNearest N : ℚ) - y| = 4 → roundNearest N % 2 = 0

/-- Rounding the integer rounds what it stands for: a sticky bit is below the guard bit (R128). -/
theorem StandsFor.round {g N : Nat} {y : ℚ} (hg : g = 1 ∨ g = 2) (h : StandsFor g N y) :
    |8 * (roundNearest N : ℚ) - y| ≤ 4 ∧
    (|8 * (roundNearest N : ℚ) - y| = 4 → roundNearest N % 2 = 0) := by
  obtain ⟨hnear, htie⟩ := roundNearest_near N
  rcases h with rfl | ⟨hbit, hlt⟩
  · exact ⟨by exact_mod_cast hnear, fun h4 => htie (by exact_mod_cast h4)⟩
  · have hgap : |8 * (roundNearest N : Int) - N| + g ≤ 4 := by
      rw [← le_sub_iff_add_le, abs_le]
      rw [abs_le] at hnear
      rcases hg with rfl | rfl
      · omega
      · omega
    have hgapQ : |8 * (roundNearest N : ℚ) - N| + g ≤ 4 := by exact_mod_cast hgap
    have htri := abs_sub_le (8 * (roundNearest N : ℚ)) N y
    rw [abs_sub_comm (N : ℚ)] at htri
    exact ⟨by linarith, fun h4 => absurd h4 (by linarith)⟩

/-- A top bit of the integer is one of the magnitude. -/
theorem StandsFor.le {g N : Nat} {y : ℚ} (hg : g = 1 ∨ g = 2) (h : StandsFor g N y)
    (hN : 2 ^ 115 ≤ N) : 2 ^ 115 ≤ y := by
  rcases h with rfl | ⟨hbit, hlt⟩
  · exact_mod_cast hN
  · have hNg : 2 ^ 115 + g ≤ N := by rcases hg with rfl | rfl <;> omega
    have hNgQ : (2 ^ 115 + g : ℚ) ≤ N := by exact_mod_cast hNg
    rw [abs_lt] at hlt
    linarith

theorem normalize_normalized {M : Nat} {eR : Int} {y : ℚ} (hM : M < 2 ^ 117) (he : -16382 ≤ eR)
    (h : StandsFor 1 M y) (hbig : y = M ∨ 2 ^ 114 ≤ M) :
    Normalized (normalize M eR).1 (normalize M eR).2 (y * 2 ^ (eR - (normalize M eR).2)) := by
  obtain ⟨g, hg, hst⟩ := normalize_standsFor hM he h hbig
  obtain ⟨hlt, hfloor, -, htop⟩ := normalize_bounds hM he
  obtain ⟨hnear, htie⟩ := hst.round hg
  exact ⟨hlt, hfloor, mul_nonneg h.nonneg (zpow_pos two_pos _).le, htop.imp_left (hst.le hg),
    hnear, htie⟩

/-- The rounding carry keeps the value and an even significand (R129). -/
theorem roundCarry_keeps (q : Nat) (e : Int) :
    ((roundCarry q e).1 : ℚ) * 2 ^ ((roundCarry q e).2 - 112) = q * 2 ^ (e - 112) ∧
    (q % 2 = 0 → (roundCarry q e).1 % 2 = 0) := by
  rcases roundCarry_cases q e with ⟨hq, hr⟩ | ⟨-, hr⟩
  · have hexp : e + 1 - 112 = e - 112 + (1 : Nat) := by push_cast; ring
    refine ⟨?_, fun _ => by rw [hr]; exact show 2 ^ 112 % 2 = 0 by decide⟩
    rw [hr, hq, hexp, two_zpow_add_natCast]
    push_cast
    ring
  · rw [hr]
    exact ⟨rfl, id⟩

/-- The word of the rounded significand is the nearest to the magnitude with its sign (R141). -/
theorem Normalized.nearestEven {N : Nat} {e : Int} {y : ℚ} (h : Normalized N e y) {s : Bool}
    {r : Word} (hr : isFinite r = true)
    (hv : value r = signFactor s * roundNearest N * 2 ^ (e - 112))
    (heven : roundNearest N % 2 = 0 → significand r % 2 = 0) :
    NearestEven (signFactor s * (y * 2 ^ (e - 115))) r := by
  have hu : (0 : ℚ) < 2 ^ (e - 115) := zpow_pos two_pos _
  have hstep : (2 : ℚ) ^ (e - 112) = 8 * 2 ^ (e - 115) := by
    have hexp : e - 112 = e - 115 + (3 : Nat) := by push_cast; ring
    rw [hexp, two_zpow_add_natCast]
    norm_num
  have hdist : |value r - signFactor s * (y * 2 ^ (e - 115))| =
      |8 * (roundNearest N : ℚ) - y| * 2 ^ (e - 115) := by
    have hfac : value r - signFactor s * (y * 2 ^ (e - 115)) =
        signFactor s * ((8 * (roundNearest N : ℚ) - y) * 2 ^ (e - 115)) := by
      rw [hv, hstep]
      ring
    rw [hfac, abs_mul, abs_signFactor, one_mul, abs_mul, abs_of_pos hu]
  refine nearestEven_of_grid (e := e) hr ?_ ?_ (fun heq => heven (h.tie ?_)) ?_
  · obtain ⟨n, hn⟩ := signFactor_mul_int s (roundNearest N)
    exact ⟨n, by rw [hv, ← hn, Int.cast_natCast]⟩
  · have := mul_le_mul_of_nonneg_right h.near hu.le
    rw [hdist, hstep]
    linarith
  · rw [hdist, hstep] at heq
    exact mul_right_cancel₀ hu.ne' (by linarith)
  · refine h.top.symm.imp_right fun htop => ?_
    have hpow : (2 : ℚ) ^ e = 2 ^ 115 * 2 ^ (e - 115) := by
      rw [← two_zpow_add_natCast]
      push_cast
      ring_nf
    rw [abs_mul, abs_signFactor, one_mul, abs_of_nonneg (mul_nonneg h.nonneg hu.le), hpow]
    exact mul_le_mul_of_nonneg_right htop hu.le

/-! ## Overflow -/

theorem overflowBound_eq : overflowBound = (2 ^ 116 - 4) * 2 ^ (16268 : Int) := by
  have hexp : (16270 : Int) = 16268 + (2 : Nat) := by norm_num
  rw [overflowBound, hexp, two_zpow_add_natCast]
  ring

theorem overflowBound_pos : 0 < overflowBound := by
  rw [overflowBound]
  exact mul_pos (by norm_num) (zpow_pos two_pos _)

theorem roundCarry_overflow_iff (q : Nat) (e : Int) :
    16383 < (roundCarry q e).2 ↔ 16384 ≤ e ∨ (e = 16383 ∧ q = 2 ^ 113) := by
  rcases roundCarry_cases q e with ⟨hq, hr⟩ | ⟨hq, hr⟩
  · rw [hr, and_iff_left hq]
    show 16383 < e + 1 ↔ 16384 ≤ e ∨ e = 16383
    omega
  · rw [hr, or_iff_left fun h => hq h.2]
    exact Int.lt_iff_add_one_le

/-- Rounding carries out exactly from half a unit below the next power of two on: the tie goes up,
since the largest significand is odd (R128, R129). -/
theorem Normalized.carry_iff {N : Nat} {e : Int} {y : ℚ} (h : Normalized N e y) :
    roundNearest N = 2 ^ 113 ↔ 2 ^ 116 - 4 ≤ y := by
  have hnear := abs_le.mp h.near
  constructor
  · intro hq
    rw [hq] at hnear
    push_cast at hnear
    linarith
  · intro hy
    have hq := (roundNearest_bounds h.lt).1
    by_contra hne
    have hmax : roundNearest N = 2 ^ 113 - 1 := by
      have hge : (2 ^ 116 : ℚ) ≤ 8 * roundNearest N + 8 := by linarith
      have : 2 ^ 116 ≤ 8 * roundNearest N + 8 := by exact_mod_cast hge
      omega
    have htie := h.tie
    rw [hmax] at hnear htie
    push_cast at hnear htie
    have hy4 : y = 2 ^ 116 - 4 := by linarith
    have heven := htie (by rw [hy4]; norm_num)
    exact absurd heven (by decide)

/-- The exponent passes its maximum exactly when the magnitude is at or beyond half a unit above the
largest finite word (R130). -/
theorem Normalized.overflow_iff {N : Nat} {e : Int} {y : ℚ} (h : Normalized N e y) :
    16383 < (roundCarry (roundNearest N) e).2 ↔ overflowBound ≤ y * 2 ^ (e - 115) := by
  have hP : (0 : ℚ) < 2 ^ (16268 : Int) := zpow_pos two_pos _
  rw [roundCarry_overflow_iff, overflowBound_eq, h.carry_iff]
  rcases lt_trichotomy e 16383 with he | rfl | he
  · have hp : (2 : ℚ) ^ (e - 115) * 2 ≤ 2 ^ (16268 : Int) := by
      rw [← zpow_add_one₀ two_ne_zero]
      exact zpow_le_zpow_right₀ one_le_two (by omega)
    have hy : y ≤ 2 ^ 116 + 4 := by
      have hq : (roundNearest N : ℚ) ≤ 2 ^ 113 := by exact_mod_cast (roundNearest_bounds h.lt).1
      have := (abs_le.mp h.near).1
      linarith
    refine iff_of_false (by omega) (not_le.mpr ?_)
    have hyp := mul_le_mul_of_nonneg_left hp h.nonneg
    have hyP := mul_le_mul_of_nonneg_right hy hP.le
    generalize (2 : ℚ) ^ (16268 : Int) = P at *
    linarith
  · have hexp : (16383 - 115 : Int) = 16268 := by norm_num
    rw [hexp, mul_le_mul_iff_left₀ hP]
    simp
  · have hp : (2 : ℚ) ^ (16268 : Int) * 2 ≤ 2 ^ (e - 115) := by
      rw [← zpow_add_one₀ two_ne_zero]
      exact zpow_le_zpow_right₀ one_le_two (by omega)
    have hyp := mul_le_mul (h.top.resolve_right (by omega)) hp
      (mul_nonneg hP.le two_pos.le) h.nonneg
    refine iff_of_true (.inl (by omega)) ?_
    generalize (2 : ℚ) ^ (16268 : Int) = P at *
    linarith

end Sys2Proof.Machine
end

section
/-! PROOFS. The general path of FPADD gives the correctly rounded sum, an infinity on overflow (40_fp_add.md R120 to R132, R141, R143). -/

namespace Sys2Proof.Machine

/-! ## Correct rounding of a number -/

/-- What R141 asks of the result `r` for the exact sum `z`, where an exact zero has sign `s`. -/
structure RoundsTo (z : ℚ) (s : Bool) (r : Word) : Prop where
  nearest : |z| < overflowBound → NearestEven z r
  posOverflow : overflowBound ≤ z → r = posInf
  negOverflow : z ≤ -overflowBound → r = negInf
  zero : z = 0 → r = zeroOf s

/-- The sign of zero does not matter for a sum that is not zero. -/
theorem RoundsTo.of_ne_zero {z : ℚ} {s s' : Bool} {r : Word} (h : RoundsTo z s r) (hz : z ≠ 0) :
    RoundsTo z s' r :=
  ⟨h.nearest, h.posOverflow, h.negOverflow, fun h0 => absurd h0 hz⟩

theorem infOf_false : infOf false = posInf := by decide

theorem infOf_true : infOf true = negInf := by decide

/-- The sign of an exact zero: negative only when both operands are (R143). -/
theorem and_eq_false_of_ne {s s' : Bool} (h : s ≠ s') : (s && s') = false := by
  rw [Bool.eq_not.mpr h.symm, Bool.and_not_self]

theorem zeroOf_false : zeroOf false = posZero := by decide

/-- The largest finite magnitude (R89). -/
theorem abs_value_le {x : Word} (h : isFinite x = true) :
    |value x| ≤ (2 ^ 113 - 1) * 2 ^ (16271 : Int) := by
  have hm : (significand x : ℚ) ≤ 2 ^ 113 - 1 := by
    have hlt : significand x + 1 ≤ 2 ^ 113 := significand_lt x
    have hltQ : ((significand x + 1 : Nat) : ℚ) ≤ 2 ^ 113 := by exact_mod_cast hlt
    push_cast at hltQ
    linarith
  have hexp : (2 : ℚ) ^ (unbiasedExp x - 112) ≤ 2 ^ (16271 : Int) :=
    zpow_le_zpow_right₀ one_le_two (by have := (unbiasedExp_bounds h).2; omega)
  rw [abs_value]
  exact mul_le_mul hm hexp (zpow_pos two_pos _).le (by norm_num)

/-- Adding less than `MIN_NORMAL` to a finite word does not overflow (R142). -/
theorem abs_value_add_lt {x : Word} (h : isFinite x = true) {d : ℚ}
    (hd : |d| < 2 ^ (-16382 : Int)) : |value x + d| < overflowBound := by
  have hmin : (2 : ℚ) ^ (-16382 : Int) ≤ 2 ^ (16270 : Int) :=
    zpow_le_zpow_right₀ one_le_two (by decide)
  have htwice : (2 : ℚ) ^ (16271 : Int) = 2 ^ (16270 : Int) * 2 :=
    zpow_add_one₀ two_ne_zero 16270
  have hx := abs_value_le h
  have htri := abs_add_le (value x) d
  rw [htwice] at hx
  rw [overflowBound]
  generalize (2 : ℚ) ^ (16270 : Int) = P at *
  linarith

theorem abs_value_lt_overflowBound {x : Word} (h : isFinite x = true) :
    |value x| < overflowBound := by
  simpa using abs_value_add_lt h (d := 0) (by rw [abs_zero]; exact zpow_pos two_pos _)

/-- A magnitude with a sign is correctly rounded when it is so as a magnitude (R130, R141). -/
theorem RoundsTo.of_magnitude {x : ℚ} {s : Bool} {r : Word} (hx : 0 ≤ x)
    (hov : overflowBound ≤ x → r = infOf s)
    (hnear : x < overflowBound → NearestEven (signFactor s * x) r)
    (hzero : x = 0 → r = zeroOf s) : RoundsTo (signFactor s * x) s r := by
  have habs : |signFactor s * x| = x := by rw [abs_mul, abs_signFactor, one_mul, abs_of_nonneg hx]
  have hpos := overflowBound_pos
  refine ⟨fun h => hnear (habs ▸ h), fun h => ?_, fun h => ?_, fun h => hzero ?_⟩
  · cases s
    · rw [signFactor_false, one_mul] at h
      rw [hov h, infOf_false]
    · rw [signFactor_true] at h
      linarith
  · cases s
    · rw [signFactor_false] at h
      linarith
    · rw [signFactor_true] at h
      rw [hov (by linarith), infOf_true]
  · rw [← habs, h, abs_zero]

/-- A word is the correct rounding of its own value (R141). -/
theorem RoundsTo.of_value {r : Word} {s : Bool} (hr : isFinite r = true)
    (hzero : value r = 0 → r = zeroOf s) : RoundsTo (value r) s r := by
  have hlt := abs_lt.mp (abs_value_lt_overflowBound hr)
  exact ⟨fun _ => nearestEven_value hr, fun h => absurd h hlt.2.not_ge,
    fun h => absurd h hlt.1.not_ge, hzero⟩

/-- A word whose value is zero is the zero of its sign (R87). -/
theorem eq_zeroOf_of_value {x : Word} (h : value x = 0) : x = zeroOf (signBit x) := by
  have hm : (significand x : ℚ) = 0 := by
    have habs := abs_value x
    rw [h, abs_zero] at habs
    exact (mul_eq_zero.mp habs.symm).resolve_right (zpow_pos two_pos _).ne'
  have hm0 : significand x = 0 := by exact_mod_cast hm
  have hE : expField x = 0 := by
    by_contra hne
    have := le_significand hne
    omega
  rw [significand_eq, if_pos hE] at hm0
  have hpack := pack_fields x
  rw [hE, hm0] at hpack
  exact hpack.symm

/-! ## The general path -/

/-- Normalization, rounding and encoding round the magnitude that `M` stands for (R126 to R132). -/
theorem finish_roundsTo {s : Bool} {M : Nat} {eR : Int} {y : ℚ} (hM : M < 2 ^ 117)
    (he : -16382 ≤ eR) (h : StandsFor 1 M y) (hbig : y = M ∨ 2 ^ 114 ≤ M) :
    RoundsTo (signFactor s * (y * 2 ^ (eR - 115))) s (finish s M eR) := by
  have hn := normalize_normalized hM he h hbig
  obtain ⟨hq, hfloor, -, hsub⟩ := rounded_bounds hM he
  have hscale : y * 2 ^ (eR - 115) = y * 2 ^ (eR - (normalize M eR).2) *
      2 ^ ((normalize M eR).2 - 115) := by
    rw [mul_assoc, ← zpow_add₀ two_ne_zero, sub_add_sub_cancel]
  have hfin : finish s M eR = encodeResult s
    (roundCarry (roundNearest (normalize M eR).1) (normalize M eR).2).1
    (roundCarry (roundNearest (normalize M eR).1) (normalize M eR).2).2 := rfl
  have hnear : y * 2 ^ (eR - 115) < overflowBound →
      NearestEven (signFactor s * (y * 2 ^ (eR - 115))) (finish s M eR) ∧
      signBit (finish s M eR) = s := by
    intro hlt
    have hmax := not_lt.mp (mt hn.overflow_iff.mp (not_le.mpr (hscale ▸ hlt)))
    obtain ⟨hf, hs, hm, -⟩ := encodeResult_fields (s := s) hq hfloor hmax hsub
    obtain ⟨hval, heven⟩ := roundCarry_keeps (roundNearest (normalize M eR).1) (normalize M eR).2
    rw [hscale, hfin]
    refine ⟨hn.nearestEven hf ?_ fun h2 => hm.symm ▸ heven h2, hs⟩
    rw [value_encodeResult hq hfloor hmax hsub, mul_assoc, hval, mul_assoc]
  refine .of_magnitude (mul_nonneg h.nonneg (zpow_pos two_pos _).le) (fun hge => ?_)
    (fun hlt => (hnear hlt).1) fun h0 => ?_
  · rw [hfin, encodeResult, if_pos (hn.overflow_iff.mpr (hscale ▸ hge))]
  · obtain ⟨hne, hs⟩ := hnear (h0 ▸ overflowBound_pos)
    rw [h0, mul_zero] at hne
    have hz := eq_zeroOf_of_value (hne.value_eq (w := posZero) (by decide)
      (value_of_isZero (by decide)))
    rwa [hs] at hz

/-- The value of an operand in units of its widened significand (R121). -/
theorem value_eq_widen (x : Word) :
    value x = signFactor (signBit x) * widen (significand x) * 2 ^ (unbiasedExp x - 115) := by
  have hexp : unbiasedExp x - 112 = unbiasedExp x - 115 + (3 : Nat) := by push_cast; ring
  rw [value_eq, hexp, two_zpow_add_natCast, widen_eq]
  push_cast
  ring

/-- The exponent difference of ordered operands (R120). -/
theorem expDiff_cast {a b : Word} (h : expField b ≤ expField a) :
    (expDiff a b : Int) = unbiasedExp a - unbiasedExp b := by
  have hle : unbiasedExp b ≤ unbiasedExp a := by
    unfold unbiasedExp
    split <;> split <;> omega
  exact Int.toNat_of_nonneg (sub_nonneg.mpr hle)

/-- The value of the second operand in units of the first (R122). -/
theorem value_eq_aligned {a b : Word} (h : expField b ≤ expField a) :
    value b = signFactor (signBit b) * (widen (significand b) / 2 ^ expDiff a b) *
      2 ^ (unbiasedExp a - 115) := by
  have hexp : unbiasedExp a - 115 = unbiasedExp b - 115 + expDiff a b := by
    rw [expDiff_cast h]
    ring
  have hpow : (2 : ℚ) ^ expDiff a b ≠ 0 := pow_ne_zero _ two_ne_zero
  rw [value_eq_widen, hexp, two_zpow_add_natCast]
  field_simp

/-- Alignment is exact, or the addend has moved at least four places: it is a multiple of 8 (R121,
R122). -/
theorem alignRight_exact_or_small (x : Word) (d : Nat) :
    (widen (significand x) / 2 ^ d : ℚ) = alignRight (widen (significand x)) d ∨
    (d ≠ 0 ∧ alignRight (widen (significand x)) d ≤ 2 ^ 112 + 1) := by
  have hB := widen_significand_lt x
  rcases Nat.lt_or_ge 3 d with hd | hd
  · right
    have hdiv : widen (significand x) / 2 ^ d ≤ widen (significand x) / 2 ^ 4 :=
      Nat.div_le_div_left (Nat.pow_le_pow_right (by decide) hd) (by decide)
    refine ⟨by omega, ?_⟩
    rw [alignRight_eq (hB.trans (by decide))]
    split <;> omega
  · left
    refine alignRight_exact (hB.trans (by decide)) ?_
    rw [widen_eq]
    exact Dvd.dvd.mul_right (pow_dvd_pow 2 hd) _

/-- The general path rounds the exact sum; of zeros of two signs it gives `+0` (R120 to R132,
R143). -/
theorem generalPath_roundsTo {a b : Word} (h : expField b ≤ expField a) :
    RoundsTo (value a + value b) (signBit a && signBit b) (generalPath a b) := by
  have hB := widen_significand_lt b
  have hA := widen_significand_lt a
  cases hc : combine (signBit a) (signBit b) (widen (significand a))
      (alignRight (widen (significand b)) (expDiff a b)) with
  | none =>
    obtain ⟨hs, heq⟩ := combine_eq_none hc
    obtain ⟨hd, -⟩ := expDiff_eq_zero_of_cancel heq
    rw [hd, alignRight_zero] at heq
    have hsum : value a + value b = value posZero := by
      rw [value_of_isZero (x := posZero) (by decide), value_eq_widen a, value_eq_aligned h, hd,
        heq, signFactor_of_ne hs]
      ring
    rw [generalPath_cancel hs (by rw [hd, alignRight_zero, heq]), hsum, and_eq_false_of_ne hs]
    exact .of_value (by decide) fun _ => zeroOf_false.symm
  | some p =>
    obtain ⟨s, M⟩ := p
    obtain ⟨hdiff, hsame, hopp⟩ := combine_eq_some hc
    have hst := alignRight_standsFor (hB.trans (by decide)) (expDiff a b)
    obtain ⟨y, ⟨hy, hexact⟩, hval⟩ := combine_standsFor (by rw [widen_eq]; omega) hst hc
    have hbig : y = M ∨ 2 ^ 114 ≤ M := by
      refine (alignRight_exact_or_small b (expDiff a b)).imp hexact fun ⟨hd, hsmall⟩ => ?_
      have := le_widen_significand (expField_ne_zero_of_expDiff hd)
      omega
    have hsum : value a + value b = signFactor s * (y * 2 ^ (unbiasedExp a - 115)) := by
      rw [value_eq_widen a, value_eq_aligned h, ← mul_assoc, hval]
      ring
    have hr := finish_roundsTo (s := s) (combine_lt hA (alignRight_lt hB _) hc)
      (le_unbiasedExp a) hy hbig
    rw [generalPath_of_combine hc, hsum]
    by_cases hs : signBit a = signBit b
    · rwa [hsame hs, ← hs, Bool.and_self, ← hsame hs]
    · refine hr.of_ne_zero ?_
      exact mul_ne_zero (signFactor_ne_zero s)
        (mul_pos (hy.pos (hopp hs)) (zpow_pos two_pos _)).ne'

end Sys2Proof.Machine
end

section
/-! PROOFS. Addition and subtraction are correctly rounded, and what follows from it: overflow, exact results and the departure of special case 4 (40_fp_add.md R115, R130, R141, R142, R151, R152; 60_exceptions.md R171). -/

namespace Sys2Proof.Machine

/-! ## Correct rounding -/

/-- On ordered operands: special case 4 with a zero gives the exact sum, and everything else is the
general path's (R115, R116). -/
theorem fpadd_roundsTo_of_le (t : Nat) {a b : Word} (ha : isFinite a = true)
    (hb : isFinite b = true) (hle : expField b ≤ expField a)
    (hns : ¬ (isNormal a = true ∧ isSubnormal b = true)) :
    RoundsTo (value a + value b) (signBit a && signBit b) (fpadd t a b) := by
  by_cases hE : expField a = 0 ↔ expField b = 0
  · rw [fpadd_of_generalPath hle (specialCase_eq_none ha hb hE)]
    exact generalPath_roundsTo hle
  · have hmax := expField_lt a
    rw [isFinite_iff] at ha
    have hna : isNormal a = true := (isNormal_iff a).mpr (by omega)
    have hEb : expField b = 0 := by omega
    have hzb : isZero b = true := (isZero_iff b).mpr
      ⟨hEb, not_not.mp fun hT => hns ⟨hna, (isSubnormal_iff b).mpr ⟨hEb, hT⟩⟩⟩
    have hva : 0 < |value a| := (zpow_pos two_pos _).trans_le (le_abs_value (by omega))
    rw [fpadd_normal_e0 t hna ((isE0_iff b).mpr hEb), value_of_isZero hzb, add_zero]
    exact .of_value (isFinite_of_isNormal hna) fun h0 => absurd h0 (abs_pos.mp hva)

/-- FPADD is correctly rounded but for a normal with a nonzero subnormal (R141). -/
theorem fpadd_roundsTo (t : Nat) {a b : Word} (ha : isFinite a = true) (hb : isFinite b = true)
    (hns : ¬ (isNormal a = true ∧ isSubnormal b = true))
    (hsn : ¬ (isSubnormal a = true ∧ isNormal b = true)) :
    RoundsTo (value a + value b) (signBit a && signBit b) (fpadd t a b) := by
  rcases le_total (expField b) (expField a) with hle | hle
  · exact fpadd_roundsTo_of_le t ha hb hle hns
  · rw [fpadd_comm, add_comm, Bool.and_comm]
    exact fpadd_roundsTo_of_le t hb ha hle fun h => hsn h.symm

/-- Settles O27: the sign of an exact zero is the common one, or positive. -/
theorem additionRoundsCorrectly : Obligations.AdditionRoundsCorrectly := by
  intro t a b ha hb hns hsn
  have h := fpadd_roundsTo t ha hb hns hsn
  refine ⟨h.nearest, h.posOverflow, h.negOverflow, fun hz hs => ?_, fun hz hs => ?_⟩
  · rw [h.zero hz, and_eq_false_of_ne hs, zeroOf_false]
  · rw [h.zero hz, ← hs, Bool.and_self]

@[simp] theorem isSubnormal_flipSign (x : Word) : isSubnormal (flipSign x) = isSubnormal x := by
  simp [isSubnormal]

theorem addsub_one (t : Nat) (a b : Word) : addsub t 1#1 a b = fpadd t a (flipSign b) := rfl

/-- Settles O28: the difference is the sum with the negated operand. -/
theorem subtractionRoundsCorrectly : Obligations.SubtractionRoundsCorrectly := by
  intro t a b ha hb hns hsn
  obtain ⟨hnear, hpos, hneg, hopp, hsame⟩ := additionRoundsCorrectly t a (flipSign b) ha
    (by rwa [isFinite_flipSign]) (by rwa [isSubnormal_flipSign]) (by rwa [isNormal_flipSign])
  simp only [value_flipSign, ← sub_eq_add_neg, ← addsub_one, signBit_flipSign]
    at hnear hpos hneg hopp hsame
  exact ⟨hnear, hpos, hneg, fun hz hs => hopp hz (by rw [hs]; exact (Bool.not_ne_self _).symm),
    fun hz hs => hsame hz (Bool.eq_not.mpr hs)⟩

/-! ## Overflow -/

/-- The result is an infinity exactly on overflow, with the sign of the sum (R130, R171). -/
def OverflowAgrees (z : ℚ) (r : Word) : Prop :=
  (isInf r = true ↔ overflowBound ≤ |z|) ∧ (isInf r = true → signBit r = decide (z < 0))

theorem overflowAgrees_of_finite {z : ℚ} {r : Word} (hr : isFinite r = true)
    (hz : |z| < overflowBound) : OverflowAgrees z r := by
  have hinf : ¬ isInf r = true := by rw [isInf_of_isFinite hr]; exact Bool.false_ne_true
  exact ⟨iff_of_false hinf hz.not_ge, fun h => absurd h hinf⟩

theorem RoundsTo.overflowAgrees {z : ℚ} {s : Bool} {r : Word} (h : RoundsTo z s r) :
    OverflowAgrees z r := by
  have hpos := overflowBound_pos
  rcases lt_or_ge |z| overflowBound with hz | hz
  · exact overflowAgrees_of_finite (h.nearest hz).1 hz
  · rcases le_abs.mp hz with hge | hle
    · rw [h.posOverflow hge]
      refine ⟨iff_of_true (by decide) hz, fun _ => ?_⟩
      rw [decide_eq_false (by linarith)]
      decide
    · rw [h.negOverflow (by linarith)]
      refine ⟨iff_of_true (by decide) hz, fun _ => ?_⟩
      rw [decide_eq_true (by linarith)]
      decide

/-- Special case 4 neither gives an infinity nor should (R115). -/
theorem overflowAgrees_normal_subnormal (t : Nat) {a b : Word} (ha : isNormal a = true)
    (hb : isSubnormal b = true) : OverflowAgrees (value a + value b) (fpadd t a b) := by
  have hEb := ((isSubnormal_iff b).mp hb).1
  have hfa := isFinite_of_isNormal ha
  rw [fpadd_normal_e0 t ha ((isE0_iff b).mpr hEb)]
  exact overflowAgrees_of_finite hfa (abs_value_add_lt hfa (abs_value_lt_of_expField_zero hEb))

/-- Settles O30: by correct rounding, and in special case 4 because a subnormal is too small to
overflow. -/
theorem overflowGivesSignedInfinity : Obligations.OverflowGivesSignedInfinity := by
  intro t a b ha hb
  by_cases hns : isNormal a = true ∧ isSubnormal b = true
  · exact overflowAgrees_normal_subnormal t hns.1 hns.2
  by_cases hsn : isSubnormal a = true ∧ isNormal b = true
  · rw [fpadd_comm, add_comm]
    exact overflowAgrees_normal_subnormal t hsn.2 hsn.1
  · exact (fpadd_roundsTo t ha hb hns hsn).overflowAgrees

/-! ## Exact results -/

/-- A sum that is the value of a word is the result's value (R141). -/
theorem RoundsTo.value_eq {z : ℚ} {s : Bool} {r w : Word} (h : RoundsTo z s r)
    (hw : isFinite w = true) (hz : value w = z) : isFinite r = true ∧ value r = z := by
  have hne := h.nearest (hz ▸ abs_value_lt_overflowBound hw)
  exact ⟨hne.1, hne.value_eq hw hz⟩

theorem isE0_of_abs_value_lt {x : Word} (h : |value x| < 2 ^ (-16382 : Int)) :
    isE0 x = true := by
  refine (isE0_iff x).mpr ?_
  by_contra hne
  have hexp : (2 : ℚ) ^ (-16382 : Int) ≤ 2 ^ unbiasedExp x :=
    zpow_le_zpow_right₀ one_le_two (le_unbiasedExp x)
  exact absurd h (hexp.trans (le_abs_value hne)).not_gt

/-- Every multiple of `2^-16494` below `MIN_NORMAL` is the value of a word (R87, R131). -/
theorem exists_word_of_tiny {n : Int} (h : |(n : ℚ) * 2 ^ (-16382 - 112 : Int)| <
    2 ^ (-16382 : Int)) :
    ∃ w, isFinite w = true ∧ value w = n * 2 ^ (-16382 - 112 : Int) := by
  have hP : (0 : ℚ) < 2 ^ (-16382 - 112 : Int) := zpow_pos two_pos _
  have hn : n.natAbs < 2 ^ 112 := by
    rw [abs_mul, abs_of_pos hP, two_zpow_eq_units (-16382)] at h
    have hlt := lt_of_mul_lt_mul_right h hP.le
    rw [← Int.cast_abs, Int.abs_eq_natAbs] at hlt
    exact_mod_cast hlt
  have hval := value_encodeResult (s := decide (n < 0)) (q := n.natAbs) (eR := -16382)
    (by omega) le_rfl (by decide) fun _ => rfl
  refine ⟨_, (encodeResult_fields (by omega) le_rfl (by decide) fun _ => rfl).1, hval.trans ?_⟩
  congr 1
  rw [Nat.cast_natAbs]
  rcases lt_or_ge n 0 with hneg | hnonneg
  · rw [decide_eq_true hneg, signFactor_true, abs_of_neg hneg]
    push_cast
    ring
  · rw [decide_eq_false hnonneg.not_gt, signFactor_false, abs_of_nonneg hnonneg, one_mul]

/-- Settles O31: the sum is a multiple of `2^-16494`, so it is the value of an E0 word. -/
theorem tinySumsAreExact : Obligations.TinySumsAreExact := by
  intro t a b ha hb hns hsn hz
  obtain ⟨m, hm⟩ := value_on_grid (le_unbiasedExp a)
  obtain ⟨n, hn⟩ := value_on_grid (le_unbiasedExp b)
  have hsum : value a + value b = ((m + n : Int) : ℚ) * 2 ^ (-16382 - 112 : Int) := by
    rw [hm, hn, Int.cast_add, add_mul]
  obtain ⟨w, hw, hval⟩ := exists_word_of_tiny (hsum ▸ hz)
  obtain ⟨-, hr⟩ := (fpadd_roundsTo t ha hb hns hsn).value_eq hw (hval.trans hsum.symm)
  exact ⟨isE0_of_abs_value_lt (hr ▸ hz), hr⟩

/-- Twice a finite word is a word unless its exponent is the largest: a subnormal doubles its
significand, a normal raises its exponent (R151). -/
theorem exists_double {x : Word} (h : expField x < 32766) :
    ∃ w, isFinite w = true ∧ value w = 2 * value x := by
  have hm := significand_lt x
  by_cases hE : expField x = 0
  · have hT := trailing_lt x
    have hm2 : 2 * significand x < 2 ^ 113 := by
      rw [significand_eq, if_pos hE]
      omega
    refine ⟨_, (encodeResult_fields (s := signBit x) hm2 le_rfl (by decide) fun _ => rfl).1, ?_⟩
    rw [value_encodeResult hm2 le_rfl (by decide) fun _ => rfl, value_eq,
      unbiasedExp_of_expField_zero hE, Nat.cast_mul, Nat.cast_two, mul_left_comm, mul_assoc]
  · have hu := unbiasedExp_of_expField_ne_zero hE
    have hlow := le_significand hE
    have hmin : -16382 ≤ unbiasedExp x + 1 := by omega
    have hmax : unbiasedExp x + 1 ≤ 16383 := by omega
    have hsub : significand x < 2 ^ 112 → unbiasedExp x + 1 = -16382 := fun hlt => by omega
    refine ⟨_, (encodeResult_fields (s := signBit x) hm hmin hmax hsub).1, ?_⟩
    rw [value_encodeResult hm hmin hmax hsub, value_eq, add_sub_right_comm,
      zpow_add_one₀ two_ne_zero]
    ring

theorem value_eq_signFactor_abs (x : Word) : value x = signFactor (signBit x) * |value x| := by
  rw [abs_value, value_eq, mul_assoc]

theorem fpadd_self_roundsTo (t : Nat) {x : Word} (hx : isFinite x = true) :
    RoundsTo (2 * value x) (signBit x) (fpadd t x x) := by
  have hex : ¬ (isNormal x = true ∧ isSubnormal x = true) := fun ⟨hn, hs⟩ => by
    have := ((isNormal_iff x).mp hn).1
    have := ((isSubnormal_iff x).mp hs).1
    omega
  have h := fpadd_roundsTo t hx hx hex fun hsn => hex hsn.symm
  rwa [← two_mul, Bool.and_self] at h

/-- Twice a word of the largest exponent is beyond the overflow bound (R130). -/
theorem overflowBound_le_double {x : Word} (h : expField x = 32766) :
    overflowBound ≤ 2 * |value x| := by
  have hE : expField x ≠ 0 := by omega
  have hu : unbiasedExp x = 16270 + (113 : Nat) := by
    rw [unbiasedExp_of_expField_ne_zero hE, h]
    rfl
  have hlow := le_abs_value hE
  have hP : (0 : ℚ) < 2 ^ (16270 : Int) := zpow_pos two_pos _
  rw [hu, two_zpow_add_natCast] at hlow
  rw [overflowBound]
  generalize (2 : ℚ) ^ (16270 : Int) = P at *
  linarith

/-- Settles O32: the doubled value is a word's own, or it is beyond the overflow bound. -/
theorem doublingIsExact : Obligations.DoublingIsExact := by
  intro t x
  constructor
  · intro hE
    obtain ⟨w, hw, hval⟩ := exists_double hE
    exact (fpadd_self_roundsTo t ((isFinite_iff x).mpr (by omega))).value_eq hw hval
  · intro hE
    have h := fpadd_self_roundsTo t ((isFinite_iff x).mpr (by omega))
    have hge := overflowBound_le_double hE
    have hval := value_eq_signFactor_abs x
    cases hs : signBit x
    · rw [hs, signFactor_false, one_mul] at hval
      rw [infOf_false]
      exact h.posOverflow (by rwa [hval])
    · rw [hs, signFactor_true] at hval
      rw [infOf_true]
      exact h.negOverflow (by linarith)

/-! ## The departure of special case 4 -/

/-- From `E = 115` on half a step at the normal's own place, or below it, is more than a subnormal
(R142). -/
theorem nearestEven_normal_add_subnormal {a b : Word} (ha : isNormal a = true)
    (hE : 115 ≤ expField a) (hb : isSubnormal b = true) : NearestEven (value a + value b) a := by
  have hE0 : expField a ≠ 0 := by omega
  have hu := unbiasedExp_of_expField_ne_zero hE0
  have hvb := abs_value_lt_of_expField_zero ((isSubnormal_iff b).mp hb).1
  have hva := le_abs_value hE0
  have hstep : (2 : ℚ) ^ (-16382 : Int) * 2 ≤ 2 ^ (unbiasedExp a - 1 - 112) := by
    rw [← zpow_add_one₀ two_ne_zero]
    exact zpow_le_zpow_right₀ one_le_two (by omega)
  have hpow : (2 : ℚ) ^ unbiasedExp a = 2 ^ (unbiasedExp a - 1) * 2 := by
    rw [← zpow_add_one₀ two_ne_zero, sub_add_cancel]
  have hsmall : (2 : ℚ) ^ (-16382 : Int) ≤ 2 ^ (unbiasedExp a - 1) :=
    zpow_le_zpow_right₀ one_le_two (by omega)
  have hdist : |value a - (value a + value b)| = |value b| := by
    rw [sub_add_cancel_left, abs_neg]
  refine nearestEven_of_grid (e := unbiasedExp a - 1) (isFinite_of_isNormal ha)
    (value_on_grid (by omega)) ?_ ?_ (.inr ?_)
  · rw [hdist]
    linarith
  · rw [hdist]
    exact fun heq => absurd heq (by linarith)
  · have htri := abs_sub_abs_le_abs_sub (value a) (-value b)
    rw [abs_neg, sub_neg_eq_add] at htri
    linarith

theorem not_nearestEven {z : ℚ} {r w : Word} (hw : isFinite w = true)
    (h : |value w - z| < |value r - z|) : ¬ NearestEven z r :=
  fun hne => absurd (hne.2 w hw).1 h.not_ge

/-- `MIN_NORMAL + (−EPS)` (R142). -/
theorem value_minNormal_sub_eps : value maxSub = value minNormal + value (flipSign eps) := by
  have hpow : (2 : ℚ) ^ (-16382 : Int) = 2 ^ 112 * 2 ^ (-16494 : Int) :=
    two_zpow_eq_units (-16382)
  rw [value_flipSign, value_maxSub, value_minNormal, value_eps, hpow]
  ring

/-- The smallest word with `E = 114`. -/
def departureNormal : Word := pack false 114 0

/-- The largest word with `E = 113`, next below `departureNormal`. -/
def departureBelow : Word := pack false 113 (2 ^ 112 - 1)

/-- `departureBelow` is nearer to `departureNormal − MAX_SUB` than `departureNormal` is (R142). -/
theorem departure_nearer :
    |value departureBelow - (value departureNormal + value (flipSign maxSub))| <
      |value departureNormal - (value departureNormal + value (flipSign maxSub))| := by
  have hnormal : value departureNormal = 2 ^ 225 * 2 ^ (-16494 : Int) := by
    rw [value_of_trailing_zero (by decide) (by decide) (by decide), ← two_zpow_add_natCast]
    congr 1
  have hbelow : value departureBelow = (2 ^ 113 - 1) * (2 ^ 112 * 2 ^ (-16494 : Int)) := by
    have hm : ((2 ^ 113 - 1 : Nat) : ℚ) = 2 ^ 113 - 1 := by norm_num
    rw [value_of_positive (m := 2 ^ 113 - 1) (e := -16494 + (112 : Nat)) (by decide) (by decide)
      (by decide), two_zpow_add_natCast, hm]
  have hP : (0 : ℚ) < 2 ^ (-16494 : Int) := zpow_pos two_pos _
  rw [hnormal, hbelow, value_flipSign, value_maxSub]
  generalize (2 : ℚ) ^ (-16494 : Int) = P at *
  rw [abs_of_neg (by linarith), abs_of_pos (by linarith)]
  linarith

/-- Settles O29: special case 4 gives the normal; it is the nearest word from `E = 115` on, and the
two examples have a nearer one. -/
theorem normalSubnormalDeparture : Obligations.NormalSubnormalDeparture := by
  have hgives : ∀ (t : Nat) (a b : Word), isNormal a = true → isSubnormal b = true →
      fpadd t a b = a := fun t a b ha hb =>
    fpadd_normal_e0 t ha ((isE0_iff b).mpr ((isSubnormal_iff b).mp hb).1)
  refine ⟨hgives, fun t a b ha hb hE => ?_, fun t => ⟨hgives t _ _ (by decide) (by decide),
    value_minNormal_sub_eps, ?_⟩, departureNormal, flipSign maxSub, by decide, by decide,
    fun t => ?_⟩
  · rw [hgives t a b ha hb]
    exact nearestEven_normal_add_subnormal ha hE hb
  · refine not_nearestEven (w := maxSub) (by decide) ?_
    rw [← value_minNormal_sub_eps, sub_self, abs_zero, value_minNormal_sub_eps,
      sub_add_cancel_left, abs_neg, value_flipSign, abs_neg, value_eps]
    exact abs_pos.mpr (zpow_pos two_pos _).ne'
  · rw [hgives t _ _ (by decide) (by decide)]
    exact not_nearestEven (w := departureBelow) (by decide) departure_nearer

end Sys2Proof.Machine
end

section
/-! PROOFS. What a host reads off a result word: the causes of a NaN result and the words that name them (60_exceptions.md R171; 40_fp_add.md R112, R114). -/

namespace Sys2Proof.Machine

/-! ## The readings as conditions on the word -/

theorem readResult_eq_invalid_iff (r : Word) : readResult r = .invalid ↔ r = snan := by
  by_cases hr : r = snan
  · rw [readResult, if_pos hr]
    exact iff_of_true rfl hr
  · rw [readResult, if_neg hr]
    cases classOf r <;> simp [hr]

/-- `SNAN` is itself a NaN word and reads as the other condition. -/
theorem readResult_eq_nan_iff (r : Word) :
    readResult r = .nan ↔ isNaN r = true ∧ r ≠ snan := by
  rw [(class_iff_classOf r).1]
  by_cases hr : r = snan
  · rw [readResult, if_pos hr]
    exact iff_of_false nofun fun h => h.2 hr
  · rw [readResult, if_neg hr]
    cases classOf r <;> simp [hr]

/-! ## The conditions as facts about the operands -/

theorem nanPropagation_iff (a b : Word) :
    nanPropagation a b = true ↔ isNaN a = true ∨ isNaN b = true := Bool.or_eq_true_iff

theorem invalidOperation_iff (a b : Word) :
    invalidOperation a b = true ↔ isInf a = true ∧ isInf b = true ∧ signBit a ≠ signBit b := by
  simp [invalidOperation, and_assoc]

/-- A word that is no NaN is an infinity or finite (R88). -/
theorem isInf_or_isFinite {x : Word} (h : ¬ isNaN x = true) :
    isInf x = true ∨ isFinite x = true := by
  rw [isNaN_iff] at h
  rw [isInf_iff, isFinite_iff]
  omega

/-! ## The causes of a NaN result -/

/-- On ordered finite operands the result is the general path's or, in special case 4, the normal
operand (R115, R116). -/
theorem isNaN_fpadd_of_finite_of_le (t : Nat) {a b : Word} (ha : isFinite a = true)
    (hb : isFinite b = true) (hle : expField b ≤ expField a) : isNaN (fpadd t a b) = false := by
  by_cases hE : expField a = 0 ↔ expField b = 0
  · rw [fpadd_of_generalPath hle (specialCase_eq_none ha hb hE)]
    exact isNaN_generalPath a b
  · have hmax := expField_lt a
    rw [isFinite_iff] at ha
    have hna : isNormal a = true := (isNormal_iff a).mpr (by omega)
    rw [fpadd_normal_e0 t hna ((isE0_iff b).mpr (by omega))]
    exact isNaN_of_isNormal hna

theorem isNaN_fpadd_of_finite (t : Nat) {a b : Word} (ha : isFinite a = true)
    (hb : isFinite b = true) : isNaN (fpadd t a b) = false := by
  rcases le_total (expField b) (expField a) with hle | hle
  · exact isNaN_fpadd_of_finite_of_le t ha hb hle
  · rw [fpadd_comm]
    exact isNaN_fpadd_of_finite_of_le t hb ha hle

/-- Without a NaN operand and an invalid operation, an infinite operand is the result (R112, R113). -/
theorem isNaN_fpadd_eq_false (t : Nat) {a b : Word} (hn : ¬ nanPropagation a b = true)
    (hi : ¬ invalidOperation a b = true) : isNaN (fpadd t a b) = false := by
  rw [nanPropagation_iff, not_or] at hn
  rw [invalidOperation_iff] at hi
  rcases isInf_or_isFinite hn.1 with ha | ha <;> rcases isInf_or_isFinite hn.2 with hb | hb
  · have hs : signBit a = signBit b := not_not.mp fun hs => hi ⟨ha, hb, hs⟩
    rw [fpadd_inf_inf t ha hb, if_pos hs]
    exact isNaN_of_isInf ha
  · rw [fpadd_inf_finite t ha hb]
    exact isNaN_of_isInf ha
  · rw [fpadd_comm, fpadd_inf_finite t hb ha]
    exact isNaN_of_isInf hb
  · exact isNaN_fpadd_of_finite t ha hb

/-- A NaN result has one of the two causes of R171. -/
theorem cause_of_isNaN_fpadd {t : Nat} {a b : Word} (h : isNaN (fpadd t a b) = true) :
    nanPropagation a b = true ∨ invalidOperation a b = true := by
  by_contra hc
  obtain ⟨hn, hi⟩ := not_or.mp hc
  rw [isNaN_fpadd_eq_false t hn hi] at h
  cases h

/-- Special case 3, for the condition as a host names it (R114, R171). -/
theorem fpadd_of_nanPropagation (t : Nat) {a b : Word} (h : nanPropagation a b = true) :
    fpadd t a b = qnan t :=
  fpadd_nan t ((nanPropagation_iff a b).mp h)

/-- Special case 1 with opposite signs, for the condition as a host names it (R112, R171). -/
theorem fpadd_of_invalidOperation (t : Nat) {a b : Word} (h : invalidOperation a b = true) :
    fpadd t a b = snan := by
  obtain ⟨ha, hb, hs⟩ := (invalidOperation_iff a b).mp h
  rw [fpadd_inf_inf t ha hb, if_neg hs]

theorem qnan_ne_snan {t : Nat} (ht : qnanTOk t = true) : qnan t ≠ snan := by
  obtain ⟨-, -, -, -, hne⟩ := nanWordsHaveTheirFields.1 t ht
  exact hne

/-- Settles O17: each condition gives its word, the two words differ and are NaNs, and a NaN result
has no other cause. -/
theorem nanResultsNameTheirCondition : Obligations.NaNResultsNameTheirCondition := by
  intro t a b ht
  rw [readResult_eq_invalid_iff, readResult_eq_nan_iff]
  refine ⟨⟨fun hr => ?_, fpadd_of_invalidOperation t⟩, ⟨fun ⟨hnan, hne⟩ => ?_, fun hn => ?_⟩,
    fpadd_of_nanPropagation t, fpadd_of_invalidOperation t⟩
  · have hnan : isNaN (fpadd t a b) = true := by rw [hr]; decide
    refine (cause_of_isNaN_fpadd hnan).resolve_left fun hn => qnan_ne_snan ht ?_
    rw [← fpadd_of_nanPropagation t hn, hr]
  · exact (cause_of_isNaN_fpadd hnan).resolve_right fun hi => hne (fpadd_of_invalidOperation t hi)
  · rw [fpadd_of_nanPropagation t hn]
    exact ⟨isNaN_qnan ht, qnan_ne_snan ht⟩

end Sys2Proof.Machine
end

section
/-! PROOFS. Reset and hazards: what a reset edge discards, the copy the block does not keep, the distance of requests that need a response, and the record of the launch (70_reset_and_hazards.md R190 to R199). -/

namespace Sys2Proof.Machine

/-! ## A reset edge -/

/-- Settles O40: a reset edge completes and leaves no stage valid. -/
theorem resetEdgeClearsPipeline : Obligations.ResetEdgeClearsPipeline := by
  intro s hr
  have hs := step_of_reset hr
  have hempty := step_empty hr hs
  refine ⟨_, hs, step_latency hs, fun k st hk => ?_, hempty.outValid, hempty.inFlight⟩
  cases k with
  | zero => cases hk
  | succ k => exact hempty st (List.mem_of_getElem? hk)

/-! ## The record of the launch -/

theorem State.Launched.of_run {k : Nat} {s t : State} (hl : s.Launched)
    (h : runEdges k s = .next t) : t.Launched :=
  runEdges_keeps (fun _ _ => State.Launched.of_step) hl h

/-- A request accepted before the first reset edge is recorded (R195). -/
theorem step_records_earlyRequest {s s' : State} (hrs : s.resetSeen = false)
    (hr : s.nextDrive.rst = false) (hv : s.nextDrive.inValid = true) (h : step s = .next s') :
    s'.earlyRequest = true := by
  obtain ⟨-, -, -, hearly⟩ := hostSideOfAnEdge s s' h
  exact hearly.mpr (.inr ⟨hrs, hr, hv⟩)

/-- No edge clears the record of an early request (R195; log 20). -/
theorem step_keeps_earlyRequest (s s' : State) (he : s.earlyRequest = true)
    (h : step s = .next s') : s'.earlyRequest = true := by
  obtain ⟨-, -, -, hearly⟩ := hostSideOfAnEdge s s' h
  exact hearly.mpr (.inl he)

/-- Settles O59: every edge keeps the launch and the record of an early request. -/
theorem launchRecordIsKept : Obligations.LaunchRecordIsKept := by
  refine ⟨fun k s s' hl h => hl.of_run h, fun k s s' hrs hr hv h hl => ?_⟩
  obtain ⟨s1, hs, hrun⟩ := runEdges_succ_eq_next.mp h
  have he := runEdges_keeps step_keeps_earlyRequest (step_records_earlyRequest hrs hr hv hs) hrun
  rw [hl.noEarlyRequest] at he
  cases he

/-! ## The block keeps no copy of the response on the outputs -/

/-- After an edge without reset the pipeline shows the accepted request and what stood in all stages
but the last (R38). -/
theorem step_visible {s s' : State} (hr : s.nextDrive.rst = false) (h : step s = .next s') :
    s'.visible = s.acceptedResult :: s.stages.dropLast.map Stage.response := by
  obtain ⟨st, hst, -, hres⟩ := step_stages hr h
  rw [State.visible, hst, List.map_cons, hres]

/-- A reset edge leaves nothing to see, in as many stages as before (R190). -/
theorem step_visible_of_reset {s s' : State} (hr : s.nextDrive.rst = true)
    (h : step s = .next s') : s'.visible = List.replicate s.latency none := by
  rw [step_of_reset hr] at h
  cases h
  rw [State.visible, State.resetEdge_stages, drawnStages_response, State.atEdge_latency]

/-- What an edge accepts depends on the pins alone when the operands are bits (R42). -/
theorem acceptedResult_of_bits {s : State} {a b : Word} (hr : s.nextDrive.rst = false)
    (ha : s.nextDrive.inA = .bits a) (hb : s.nextDrive.inB = .bits b) :
    s.acceptedResult =
      if s.nextDrive.inValid then some (addsub Config.qnanT s.nextDrive.inOp a b) else none := by
  cases hv : s.nextDrive.inValid with
  | false => exact acceptedResult_of_idle hr hv
  | true => exact acceptedResult_of_request hr hv (by rw [ha]; rfl) (by rw [hb]; rfl)

/-- Settles O48: after a reset edge only the number of stages shows, after any other edge the
accepted request and all stages but the last. -/
theorem blockKeepsNoCopyOfResponse : Obligations.BlockKeepsNoCopyOfResponse := by
  intro s s' t t' d a b hstages hd hd' ha hb h h'
  cases hr : d.rst with
  | true =>
    have hlat : s.latency = s'.latency := by
      simpa [State.stages_length, State.latency] using congrArg List.length hstages
    rw [step_visible_of_reset (by rw [hd, hr]) h, step_visible_of_reset (by rw [hd', hr]) h', hlat]
  | false =>
    have hacc : s.acceptedResult = s'.acceptedResult := by
      rw [acceptedResult_of_bits (by rw [hd, hr]) (by rw [hd, ha]) (by rw [hd, hb]),
        acceptedResult_of_bits (by rw [hd', hr]) (by rw [hd', ha]) (by rw [hd', hb]), hd, hd']
    rw [step_visible (by rw [hd, hr]) h, step_visible (by rw [hd', hr]) h', hacc, hstages]

/-! ## One request in flight -/

/-- One request was accepted `j + 1` edges ago, the host has idled since, and nothing else is or was
in flight: its value `x` stands in `stage[j + 1]`, if there is such a stage, and the host, which had
taken the responses `rs` before, has taken `x` too once it has left the last stage (R38, R40). -/
structure State.HoldsOnly (s : State) (rs : List Word) (x : Word) (j : Nat) : Prop where
  launched : s.Launched
  responses : s.responses = rs ++ if s.latency ≤ j then [x] else []
  stages : ∀ k st, s.stages[k]? = some st → st.response = if k = j then some x else none

theorem State.stages_getElem?_last (s : State) : s.stages[s.later.length]? = some s.lastStage :=
  outputsShowLastStage s

theorem State.HoldsOnly.lastStage_response {s : State} {rs : List Word} {x : Word} {j : Nat}
    (h : s.HoldsOnly rs x j) :
    s.lastStage.response = if s.latency = j + 1 then some x else none := by
  rw [h.stages _ _ s.stages_getElem?_last, State.latency]
  simp only [Nat.add_right_cancel_iff]

theorem State.outValid_eq_isSome (s : State) : s.outValid = s.lastStage.response.isSome := by
  rw [State.lastStage_response]
  cases s.outValid <;> rfl

theorem State.HoldsOnly.outValid_iff {s : State} {rs : List Word} {x : Word} {j : Nat}
    (h : s.HoldsOnly rs x j) : s.outValid = true ↔ s.latency = j + 1 := by
  rw [State.outValid_eq_isSome, h.lastStage_response, Option.isSome_ite]

/-- At the next edge the host has the response when it has left, or is leaving, the last stage. -/
theorem State.HoldsOnly.atEdge_responses {s : State} {rs : List Word} {x : Word} {j : Nat}
    (h : s.HoldsOnly rs x j) :
    s.atEdge.responses = rs ++ if s.latency ≤ j + 1 then [x] else [] := by
  rw [State.atEdge_responses, State.presented_launched h.launched.resetSeen, h.lastStage_response,
    h.responses, List.append_assoc]
  rcases Nat.lt_trichotomy s.latency (j + 1) with hlt | heq | hgt
  · simp [show s.latency ≤ j by omega, hlt.ne, hlt.le]
  · simp [heq]
  · simp [show ¬ s.latency ≤ j by omega, hgt.ne', hgt.not_ge]

/-- The stages after an edge without reset: the accepted request, then those of before (R38). -/
theorem step_getElem?_response {s s' : State} (hr : s.nextDrive.rst = false)
    (h : step s = .next s') {k : Nat} {st : Stage} (hk : s'.stages[k]? = some st) :
    (k = 0 ∧ st.response = s.acceptedResult) ∨ ∃ i, k = i + 1 ∧ s.stages[i]? = some st := by
  obtain ⟨new, hst, -, hres⟩ := step_stages hr h
  rw [hst] at hk
  cases k with
  | zero =>
    cases hk
    exact .inl ⟨rfl, hres⟩
  | succ i =>
    rw [List.getElem?_cons_succ, List.getElem?_dropLast] at hk
    split at hk
    · exact .inr ⟨i, rfl, hk⟩
    · cases hk

/-- A request accepted into an empty pipeline is the only one in flight. -/
theorem State.Empty.holdsOnly_of_request {s s' : State} {x : Word} (hl : s.Launched) (he : s.Empty)
    (hr : s.nextDrive.rst = false) (hx : s.acceptedResult = some x) (h : step s = .next s') :
    s'.HoldsOnly s.responses x 0 := by
  refine ⟨hl.of_step h, ?_, fun k st hk => ?_⟩
  · rw [(step_hostSide h).2.1, State.atEdge_responses, State.presented, he.outValid]
    simp [State.latency]
  · rcases step_getElem?_response hr h hk with ⟨rfl, hres⟩ | ⟨i, rfl, hi⟩
    · rw [hres, hx, if_pos rfl]
    · rw [Stage.response, he st (List.mem_of_getElem? hi)]
      rfl

/-- An idle edge moves the one request by one stage (R38). -/
theorem State.HoldsOnly.of_idle {s s' : State} {rs : List Word} {x : Word} {j : Nat}
    (hh : s.HoldsOnly rs x j) (hr : s.nextDrive.rst = false) (hv : s.nextDrive.inValid = false)
    (h : step s = .next s') : s'.HoldsOnly rs x (j + 1) := by
  refine ⟨hh.launched.of_step h, ?_, fun k st hk => ?_⟩
  · rw [(step_hostSide h).2.1, hh.atEdge_responses, step_latency h]
  · rcases step_getElem?_response hr h hk with ⟨rfl, hres⟩ | ⟨i, rfl, hi⟩
    · rw [hres, acceptedResult_of_idle hr hv, if_neg (Nat.succ_ne_zero j).symm]
    · simp only [hh.stages i st hi, Nat.add_right_cancel_iff]

theorem State.HoldsOnly.run_quiets {n : Nat} {rest : List Drive} {s : State} {rs : List Word}
    {x : Word} {j : Nat} (hh : s.HoldsOnly rs x j)
    (hp : s.pending = List.replicate n Drive.quiet ++ rest) :
    ∃ t, runEdges n s = .next t ∧ t.pending = rest ∧ t.HoldsOnly rs x (j + n) := by
  induction n generalizing s j with
  | zero => exact ⟨s, runEdges_zero s, hp, hh⟩
  | succ n ih =>
    have hd : s.nextDrive = Drive.quiet := nextDrive_of_pending hp
    have hr : s.nextDrive.rst = false := by rw [hd]; rfl
    have hv : s.nextDrive.inValid = false := by rw [hd]; rfl
    have hs := step_of_idle hr hv
    have hp' : s.atEdge.idleEdge.pending = List.replicate n Drive.quiet ++ rest := by
      rw [State.idleEdge_pending, State.atEdge_pending, hp]
      rfl
    rw [runEdges_succ_of_step hs, ← Nat.add_assoc, Nat.add_right_comm]
    exact ih (hh.of_idle hr hv hs) hp'

/-- A request into an empty pipeline and `j` idle edges. -/
theorem run_request_quiets {s : State} {op : BitVec 1} {a b : Word} {j : Nat} {rest : List Drive}
    (hl : s.Launched) (he : s.Empty)
    (hp : s.pending =
      ⟨false, true, op, .bits a, .bits b⟩ :: (List.replicate j Drive.quiet ++ rest)) :
    ∃ t, runEdges (j + 1) s = .next t ∧ t.pending = rest ∧ t.latency = s.latency ∧
      t.HoldsOnly s.responses (addsub Config.qnanT op a b) j := by
  have hd := nextDrive_of_pending hp
  have hr : s.nextDrive.rst = false := by rw [hd]
  have hacc := acceptedResult_of_bits (s := s) (a := a) (b := b) hr (by rw [hd]) (by rw [hd])
  rw [hd, if_pos rfl] at hacc
  have hs := step_of_bits hp
  rw [exec_decodeRequest] at hs
  obtain ⟨t, hrun, hpt, hh⟩ := (he.holdsOnly_of_request hl hr hacc hs).run_quiets rfl
  rw [Nat.zero_add] at hh
  have hrun' := (runEdges_succ_of_step hs).trans hrun
  exact ⟨t, hrun', hpt, latencyIsFixed _ _ _ hrun', hh⟩

/-! ## What a reset discards -/

/-- While the host idles, an empty pipeline stays empty and presents nothing (R40). -/
theorem run_quiet_of_empty (k : Nat) {s : State} (hl : s.Launched) (hq : s.Quiet) (he : s.Empty) :
    ∃ t, runEdges k s = .next t ∧ t.responses = s.responses ∧ t.Empty := by
  obtain ⟨t, hrun, hstream, hclear⟩ := run_quiet k (j := s.latency) hl hq fun st hst =>
    he st (List.mem_of_mem_take hst)
  have het : t.Empty := hclear.empty (by rw [latencyIsFixed _ _ _ hrun]; exact Nat.le_add_right _ _)
  exact ⟨t, hrun, by rw [← het.stream, hstream, he.stream], het⟩

/-- Settles O42: at the reset edge the host has the response exactly when it has left the last stage
or is on the outputs, and the reset leaves nothing in flight. -/
theorem resetDiscardsInFlight : Obligations.ResetDiscardsInFlight := by
  intro s op a b j m d hl he hr
  obtain ⟨t, hrun, hp, hlat, hh⟩ := run_request_quiets (j := j)
    (rest := d :: List.replicate m Drive.quiet)
    (s := { s with
      pending := ⟨false, true, op, .bits a, .bits b⟩ ::
        (List.replicate j Drive.quiet ++ d :: List.replicate m Drive.quiet) })
    ⟨hl.resetSeen, hl.noEarlyRequest⟩ he rfl
  rw [← nextDrive_of_pending hp] at hr
  have ht := step_of_reset hr
  have hquiet : t.atEdge.resetEdge.Quiet := by
    intro q hq
    rw [State.resetEdge_pending, State.atEdge_pending, hp, List.tail_cons] at hq
    rw [List.eq_of_mem_replicate hq]
    exact ⟨rfl, rfl⟩
  obtain ⟨u, hrun', hre, heu⟩ :=
    run_quiet_of_empty m (hh.launched.of_step ht) hquiet (step_empty hr ht)
  refine ⟨u, ?_, ?_, heu⟩
  · rw [show j + 2 + m = j + 1 + (m + 1) by omega, runEdges_add hrun, runEdges_succ_of_step ht,
      hrun']
  · rw [hre, State.resetEdge_responses, hh.atEdge_responses, hlat]
    rfl

/-! ## The distance of a request that needs a response -/

/-- A response that has not been presented resolves to its own number (U9). -/
theorem Source.resolve_missing {s : State} {n : Nat} (h : s.responses.length ≤ n) :
    Source.resolve (.response (n + 1)) s = .error (n + 1) := by
  simp only [Source.resolve, List.getElem?_eq_none h]

/-- A request whose first operand the host does not have is refused (R198; log 8). -/
theorem step_of_unavailable {s : State} {n : Nat} (hr : s.nextDrive.rst = false)
    (hv : s.nextDrive.inValid = true) (ha : s.nextDrive.inA.resolve s.atEdge = .error n) :
    step s = .refused (.responseNotAvailable n) := by
  have hin : s.edgeInput = .unavailable n := by simp [State.edgeInput, Drive.seen, hr, hv, ha]
  rw [step, State.clockEdge, hin]

theorem runEdges_add_one {k : Nat} {s t : State} (h : runEdges k s = .next t) :
    runEdges (k + 1) s = step t := by
  rw [runEdges_add h, runEdges_succ]
  cases step t <;> rfl

/-- An edge that drives a request with a resolved first operand and bits enters its value. -/
theorem step_of_fedBack {t : State} {op : BitVec 1} {src : Source} {x c : Word}
    (hp : t.pending = [⟨false, true, op, src, .bits c⟩]) (hx : src.resolve t.atEdge = .ok x) :
    ∃ t', step t = .next t' ∧ t'.stage1 = ⟨true, addsub Config.qnanT op x c⟩ := by
  have hd := nextDrive_of_pending hp
  have hs := step_of_request (s := t) (a := x) (b := c) (by rw [hd]) (by rw [hd])
    (by rw [hd]; exact hx) (by rw [hd]; rfl)
  exact ⟨_, hs, by rw [State.accept_stage1, hd]⟩

/-- Settles O50: after the request's edge and `j` idle ones its value is in `stage[j + 1]`, so at the
next edge the host has it from `j + 1 = L` on, and it stands on the outputs when `j + 1 = L`. -/
theorem feedbackDistanceIsLatency : Obligations.FeedbackDistanceIsLatency := by
  intro s op op2 a b c j hl he first script x
  have hone : ∀ src : Source, ∃ t, runEdges (j + 1) { s with pending := script src } = .next t ∧
      t.pending = [⟨false, true, op2, src, .bits c⟩] ∧ t.latency = s.latency ∧
      t.HoldsOnly s.responses x j := fun src =>
    run_request_quiets (s := { s with pending := script src })
      ⟨hl.resetSeen, hl.noEarlyRequest⟩ he rfl
  obtain ⟨t, hrun, hp, hlat, hh⟩ := hone (.response (s.responses.length + 1))
  obtain ⟨u, hrunu, hpu, hlatu, hhu⟩ := hone .outResult
  have hlast := hhu.lastStage_response
  rw [hlatu] at hlast
  have hsampled := hh.atEdge_responses
  rw [hlat] at hsampled
  refine ⟨fun hj => ?_, fun hj => ?_, fun hj => ?_, u, hrunu, ?_⟩
  · rw [runEdges_add_one hrun]
    refine step_of_fedBack hp (Source.resolve_response ?_)
    rw [hsampled, if_pos hj, List.getElem?_concat_length]
  · rw [runEdges_add_one hrun]
    have hd := nextDrive_of_pending hp
    refine step_of_unavailable (by rw [hd]) (by rw [hd]) ?_
    rw [if_neg (by omega), List.append_nil] at hsampled
    rw [hd]
    exact Source.resolve_missing (by rw [hsampled])
  · rw [runEdges_add_one hrunu]
    rw [if_pos hj.symm] at hlast
    refine step_of_fedBack hpu (congrArg Except.ok ?_)
    rw [State.atEdge_outResult, State.outResult, Stage.response_eq_some hlast]
  · rw [hhu.outValid_iff, hlatu, eq_comm]

end Sys2Proof.Machine
end

section
/-! PROOFS. The last request of a script and the end of its run (30_encoding.md R96, R97; 70_reset_and_hazards.md R195, R200). -/

namespace Sys2Proof.Machine

/-! ## What is left to drive -/

/-- A run uses up one pending drive an edge (log 1). -/
theorem run_pending {k : Nat} {s t : State} (h : runEdges k s = .next t) :
    t.pending = s.pending.drop k := by
  induction k generalizing s with
  | zero =>
    rw [runEdges_zero] at h
    cases h
    rfl
  | succ k ih =>
    obtain ⟨s', hs, hrun⟩ := runEdges_succ_eq_next.mp h
    rw [ih hrun, (step_hostSide hs).1, State.atEdge_pending, List.drop_tail]

/-- An `IDLE n` line drives neither reset nor request (R97). -/
theorem idle_of_mem_idleDrives {n t : Nat} {d : Drive} (h : d ∈ idleDrives n t) :
    d.rst = false ∧ d.inValid = false := by
  obtain ⟨k, rfl⟩ := mem_idleDrives h
  exact ⟨rfl, rfl⟩

theorem Line.drives_length (t : Nat) (l : Line) : (l.drives t).length = l.edges := by
  cases l with
  | add a b | sub a b | reset => rfl
  | idle n => exact idleDrives_length n t

/-! ## The last request -/

/-- A list of drives whose last request is the one with index `n`, with only idle drives after it
(R200). -/
def LastRequestAt (ds : List Drive) (n : Nat) : Prop :=
  ∃ d rest, ds.drop n = d :: rest ∧ d.rst = false ∧ d.inValid = true ∧
    ∀ q ∈ rest, q.rst = false ∧ q.inValid = false

/-- `t_last` is the edge of the last request that no reset follows: one of the script's, or one
before it when the script has idle lines alone (R200). -/
theorem lastRequestFrom_eq_some {ls : List ScriptLine} {t tl : Nat} {last : Option Nat}
    (h : lastRequestFrom t last ls = some tl) :
    (last = some tl ∧ ∀ q ∈ scriptDrives t ls, q.rst = false ∧ q.inValid = false) ∨
    ∃ n, tl = t + n ∧ LastRequestAt (scriptDrives t ls) n := by
  induction ls generalizing t last with
  | nil => exact .inl ⟨h, nofun⟩
  | cons l ls ih =>
    rw [lastRequestFrom] at h
    rw [scriptDrives]
    rcases ih h with ⟨hlast, hidle⟩ | ⟨n, rfl, d, rest, hdrop, hd⟩
    · cases hl : l.line with
      | add a b | sub a b =>
        rw [hl] at hlast hidle
        cases hlast
        exact .inr ⟨0, rfl, _, _, rfl, rfl, rfl, hidle⟩
      | idle n =>
        rw [hl] at hlast hidle
        exact .inl ⟨hlast, fun q hq =>
          (List.mem_append.mp hq).elim idle_of_mem_idleDrives (hidle q)⟩
      | reset =>
        rw [hl] at hlast
        cases hlast
    · refine .inr ⟨l.line.edges + n, Nat.add_assoc _ _ _, d, rest, ?_, hd⟩
      have hlen := Line.drives_length t l.line
      rw [← hlen, List.drop_length_add_append, hlen, hdrop]

/-- A request that leaves no record of an early request is one to a launched block (R195). -/
theorem launched_of_request {s s' : State} (hr : s.nextDrive.rst = false)
    (hv : s.nextDrive.inValid = true) (he : s'.earlyRequest = false) (h : step s = .next s') :
    s'.Launched := by
  have hrs : s.resetSeen = true := by
    by_contra hrs
    rw [step_records_earlyRequest (Bool.eq_false_of_not_eq_true hrs) hr hv h] at he
    cases he
  obtain ⟨-, -, hseen, -⟩ := step_hostSide h
  exact ⟨by rw [hseen, State.atEdge_resetSeen, hrs, Bool.true_or], he⟩

/-- After the last request of a legal script the block is launched and the host idles (R200). -/
theorem run_to_lastRequest {s : State} {script : List ScriptLine} {tl : Nat} (hs : s.AtStart)
    (hlegal : scriptLegal s.latency s.resetSeen script = true)
    (hlast : lastRequestFrom 0 none script = some tl) :
    ∃ t, runEdges (tl + 1) (s.load script) = .next t ∧ t.Launched ∧ t.Quiet := by
  rcases lastRequestFrom_eq_some hlast with ⟨hnone, -⟩ | ⟨n, hn, d, rest, hdrop, hr, hv, hidle⟩
  · cases hnone
  rw [Nat.zero_add] at hn
  subst hn
  obtain ⟨t, hrun, -⟩ := legalScriptsNeverRefused s script hs hlegal tl
  obtain ⟨u, hrunu, he⟩ := legalScriptsNeverRefused s script hs hlegal (tl + 1)
  have hstep : step t = .next u := (runEdges_add_one hrun).symm.trans hrunu
  have hp : t.pending = d :: rest := (run_pending hrun).trans hdrop
  rw [← nextDrive_of_pending hp] at hr hv
  refine ⟨u, hrunu, launched_of_request hr hv he hstep, ?_⟩
  rw [State.Quiet, (step_hostSide hstep).1, State.atEdge_pending, hp]
  exact hidle

/-! ## After it -/

/-- Settles O56: from the last request on the host idles, so `L` more edges drain the pipeline and
nothing enters it again. -/
theorem runEndsAtLastRequestPlusLatency : Obligations.RunEndsAtLastRequestPlusLatency := by
  intro s script e hs hlegal hend
  obtain ⟨tl, hlast, rfl⟩ := Option.map_eq_some_iff.mp hend
  obtain ⟨t, hrun, hl, hq⟩ := run_to_lastRequest hs hlegal hlast
  have hlat : t.latency = s.latency := latencyIsFixed _ (s.load script) _ hrun
  obtain ⟨u, hdrain, -, hempty⟩ := quietEdgesDrainThePipeline t hl hq
  have hlu := hl.of_run hdrain
  have hqu : u.Quiet := runEdges_keeps (fun _ _ => State.Quiet.of_step) hq hdrain
  have hrunu : runEdges (tl + s.latency + 1) (s.load script) = .next u := by
    rw [Nat.add_right_comm, runEdges_add hrun, ← hlat, hdrain]
  refine ⟨u, hrunu, hlu, hempty, fun m => ?_⟩
  obtain ⟨v, hrunv, hre, -⟩ := run_quiet_of_empty m hlu hqu hempty
  exact ⟨v, (runEdges_add hrunu).trans hrunv, hre⟩

end Sys2Proof.Machine
end

section
/-! PROOFS. Numbers that are no request word (30_encoding.md R81; log 10). -/

namespace Sys2Proof.Machine

/-- Settles O5: a number of `2^257` or more has no place in a request word, and the decoder's other
branch is the rejection. -/
theorem overwideNumbersAreRejected : Obligations.OverwideNumbersAreRejected := by
  intro w hw
  have hfits : ¬ requestWordFits w = true :=
    fun h => Nat.not_lt.mpr hw ((requestWordFits_iff w).mp h)
  rw [decode, if_neg hfits]

end Sys2Proof.Machine
end
